-- ==== Sys2Proof/Word.lean ====
section
/-! DEFINITION. The two widths of the machine (00_scope.md R7, R9): the 16-bit word that every register, address and
memory cell holds, and the 8-bit byte the console moves. Their arithmetic is BitVec's, which is modulo 2^16 (R7). -/

namespace Sys2Proof

/-- A 16-bit value: a register, an address or a memory word (R7, R20, R32). -/
abbrev Word := BitVec 16

/-- A console byte (R9, R13). -/
abbrev Byte := BitVec 8

end Sys2Proof
end

