-- ==== Sys2Proof/Syntax.lean ====
section
/-! DEFINITION. The instructions as syntax: one constructor per row of spec/opcode_table.json (30_encoding.md R62, R70),
seventeen forms and the two reserved opcodes. Bits that no rule reads (R67) are no part of the syntax. -/

namespace Sys2Proof

/-- The general registers R0 to R7 (R20). -/
inductive Reg where
  | r0 | r1 | r2 | r3 | r4 | r5 | r6 | r7
  deriving DecidableEq, Repr

/-- The instruction forms of R70. An immediate or offset is held WIDENED to 16 bits (R64: "Each is taken from its bits
and widened to 16 bits before use"); `Instr.wellFormed` says which 16-bit values fit the field (log entry 27). -/
inductive Instr where
  /-- ADD, register mode (R81). -/
  | addReg (dr sr1 sr2 : Reg)
  /-- ADD, immediate mode (R82); `imm` fits imm5. -/
  | addImm (dr sr1 : Reg) (imm : Word)
  /-- AND, register mode (R83). -/
  | andReg (dr sr1 sr2 : Reg)
  /-- AND, immediate mode (R84); `imm` fits imm5. -/
  | andImm (dr sr1 : Reg) (imm : Word)
  /-- NOT (R85). -/
  | not (dr sr : Reg)
  /-- BR with its three enable bits (R66, R101); `off` fits offset9. -/
  | br (n z p : Bool) (off : Word)
  /-- JMP, and RET as JMP R7 (R103). -/
  | jmp (base : Reg)
  /-- JSR (R106); `off` fits offset11. -/
  | jsr (off : Word)
  /-- JSRR (R107). -/
  | jsrr (base : Reg)
  /-- LD (R121); `off` fits offset9. -/
  | ld (dr : Reg) (off : Word)
  /-- LDI (R122); `off` fits offset9. -/
  | ldi (dr : Reg) (off : Word)
  /-- LDR (R123); `off` fits offset6. -/
  | ldr (dr base : Reg) (off : Word)
  /-- LEA (R124); `off` fits offset9. -/
  | lea (dr : Reg) (off : Word)
  /-- ST (R140); `off` fits offset9. -/
  | st (sr : Reg) (off : Word)
  /-- STI (R141); `off` fits offset9. -/
  | sti (sr : Reg) (off : Word)
  /-- STR (R142); `off` fits offset6. -/
  | str (sr base : Reg) (off : Word)
  /-- TRAP with its 8-bit vector (R160). -/
  | trap (vector : Byte)
  /-- Reserved(8): a word with instr[15:12] = 1000 (R68). -/
  | reserved8
  /-- Reserved(13): a word with instr[15:12] = 1101 (R68). -/
  | reserved13
  deriving DecidableEq, Repr

end Sys2Proof
end

