-- ==== Sys2Proof/WellFormed.lean ====
section
/-! DEFINITION. Which instruction terms have an encoding: every immediate and offset lies in its field's signed range
(30_encoding.md R64). Register numbers, BR's bits and the trap vector cannot be out of range by construction (R22, R66). -/

namespace Sys2Proof

/-- imm5 is in -16..15 (R64). -/
def fitsImm5 (v : Word) : Bool := decide (-16 ≤ v.toInt) && decide (v.toInt ≤ 15)

/-- offset6 is in -32..31 (R64). -/
def fitsOffset6 (v : Word) : Bool := decide (-32 ≤ v.toInt) && decide (v.toInt ≤ 31)

/-- offset9 is in -256..255 (R64). -/
def fitsOffset9 (v : Word) : Bool := decide (-256 ≤ v.toInt) && decide (v.toInt ≤ 255)

/-- offset11 is in -1024..1023 (R64). -/
def fitsOffset11 (v : Word) : Bool := decide (-1024 ≤ v.toInt) && decide (v.toInt ≤ 1023)

/-- The instruction's immediate or offset fits its field (R64). -/
def Instr.wellFormed : Instr → Bool
  | .addReg _ _ _ => true
  | .addImm _ _ imm => fitsImm5 imm
  | .andReg _ _ _ => true
  | .andImm _ _ imm => fitsImm5 imm
  | .not _ _ => true
  | .br _ _ _ off => fitsOffset9 off
  | .jmp _ => true
  | .jsr off => fitsOffset11 off
  | .jsrr _ => true
  | .ld _ off => fitsOffset9 off
  | .ldi _ off => fitsOffset9 off
  | .ldr _ _ off => fitsOffset6 off
  | .lea _ off => fitsOffset9 off
  | .st _ off => fitsOffset9 off
  | .sti _ off => fitsOffset9 off
  | .str _ _ off => fitsOffset6 off
  | .trap _ => true
  | .reserved8 => true
  | .reserved13 => true

end Sys2Proof
end

