-- ==== Sys2Proof/Decode.lean ====
section
/-! DEFINITION. The decoder and the encoder (30_encoding.md R60 to R70). The opcode numbering is a table of its own,
`Opcode.ofBits` and `Opcode.toBits`, as R61 asks, so that another numbering changes one table. -/

namespace Sys2Proof

/-! ### Bit fields and sign extension -/

/-- `v[hi:lo]` of R6, as the `len` bits of `w` from bit `lo` up. -/
def bits (w : Word) (lo len : Nat) : BitVec len := w.extractLsb' lo len

/-- `sext_N(v)` of R8: the 16-bit value whose upper bits copy bit N-1 of the field. -/
def sext {n : Nat} (v : BitVec n) : Word := v.signExtend 16

/-- The register a 3-bit field names (R63). -/
def Reg.ofBits (b : BitVec 3) : Reg :=
  match b.toNat with
  | 0 => .r0
  | 1 => .r1
  | 2 => .r2
  | 3 => .r3
  | 4 => .r4
  | 5 => .r5
  | 6 => .r6
  | _ => .r7

/-- The 3-bit number of a register (R63). -/
def Reg.toBits : Reg → BitVec 3
  | .r0 => 0
  | .r1 => 1
  | .r2 => 2
  | .r3 => 3
  | .r4 => 4
  | .r5 => 5
  | .r6 => 6
  | .r7 => 7

/-! ### The opcode table (R61) -/

/-- The sixteen rows of R61's opcode map; `jsr` stands for JSR and JSRR, told apart by the mode bit (R65). -/
inductive Opcode where
  | br | add | ld | st | jsr | and | ldr | str | reserved8 | not | ldi | sti | jmp | reserved13 | lea | trap
  deriving DecidableEq, Repr

/-- R61's numbering, read from instr[15:12]. UNVERIFIED: the spec says its source does not give it (D2): log entry 4. -/
def Opcode.ofBits (b : BitVec 4) : Opcode :=
  match b.toNat with
  | 0 => .br
  | 1 => .add
  | 2 => .ld
  | 3 => .st
  | 4 => .jsr
  | 5 => .and
  | 6 => .ldr
  | 7 => .str
  | 8 => .reserved8
  | 9 => .not
  | 10 => .ldi
  | 11 => .sti
  | 12 => .jmp
  | 13 => .reserved13
  | 14 => .lea
  | _ => .trap

/-- R61's numbering, as written into instr[15:12]. -/
def Opcode.toBits : Opcode → BitVec 4
  | .br => 0b0000
  | .add => 0b0001
  | .ld => 0b0010
  | .st => 0b0011
  | .jsr => 0b0100
  | .and => 0b0101
  | .ldr => 0b0110
  | .str => 0b0111
  | .reserved8 => 0b1000
  | .not => 0b1001
  | .ldi => 0b1010
  | .sti => 0b1011
  | .jmp => 0b1100
  | .reserved13 => 0b1101
  | .lea => 0b1110
  | .trap => 0b1111

/-! ### The decoder -/

/-- DR = SR = instr[11:9] (R62). -/
def fieldDR (w : Word) : Reg := Reg.ofBits (bits w 9 3)

/-- SR1 = BaseR = NOT's SR = instr[8:6] (R62). -/
def fieldSR1 (w : Word) : Reg := Reg.ofBits (bits w 6 3)

/-- SR2 = instr[2:0] (R62). -/
def fieldSR2 (w : Word) : Reg := Reg.ofBits (bits w 0 3)

/-- imm5 = instr[4:0], widened by sext_5 (R62, R64). -/
def fieldImm5 (w : Word) : Word := sext (bits w 0 5)

/-- offset6 = instr[5:0], widened by sext_6 (R62, R64). -/
def fieldOffset6 (w : Word) : Word := sext (bits w 0 6)

/-- offset9 = instr[8:0], widened by sext_9 (R62, R64). -/
def fieldOffset9 (w : Word) : Word := sext (bits w 0 9)

/-- offset11 = instr[10:0], widened by sext_11 (R62, R64). -/
def fieldOffset11 (w : Word) : Word := sext (bits w 0 11)

/-- Every 16-bit word decodes to exactly one constructor (R69, R70); the bits of R67 are not read. -/
def decode (w : Word) : Instr :=
  match Opcode.ofBits (bits w 12 4) with
  | .br => .br (w.getLsbD 11) (w.getLsbD 10) (w.getLsbD 9) (fieldOffset9 w)
  | .add => if w.getLsbD 5 then .addImm (fieldDR w) (fieldSR1 w) (fieldImm5 w) else .addReg (fieldDR w) (fieldSR1 w) (fieldSR2 w)
  | .ld => .ld (fieldDR w) (fieldOffset9 w)
  | .st => .st (fieldDR w) (fieldOffset9 w)
  | .jsr => if w.getLsbD 11 then .jsr (fieldOffset11 w) else .jsrr (fieldSR1 w)
  | .and => if w.getLsbD 5 then .andImm (fieldDR w) (fieldSR1 w) (fieldImm5 w) else .andReg (fieldDR w) (fieldSR1 w) (fieldSR2 w)
  | .ldr => .ldr (fieldDR w) (fieldSR1 w) (fieldOffset6 w)
  | .str => .str (fieldDR w) (fieldSR1 w) (fieldOffset6 w)
  | .reserved8 => .reserved8
  | .not => .not (fieldDR w) (fieldSR1 w)
  | .ldi => .ldi (fieldDR w) (fieldOffset9 w)
  | .sti => .sti (fieldDR w) (fieldOffset9 w)
  | .jmp => .jmp (fieldSR1 w)
  | .reserved13 => .reserved13
  | .lea => .lea (fieldDR w) (fieldOffset9 w)
  | .trap => .trap (bits w 0 8)

/-- Why a byte stream holds no instruction: words never fail to decode (R70), only a missing word does. -/
inductive DecodeError where
  /-- Fewer than the two bytes of one instruction word are left (R60). -/
  | shortWord
  deriving DecidableEq, Repr

/-- The first instruction of a byte stream laid out as a program image is, each word big-endian (R201), and the rest of
the stream; total on any bytes, rejecting a short stream by name. -/
def decodeBytes : List Byte → Except DecodeError (Instr × List Byte)
  | hi :: lo :: rest => .ok (decode (hi ++ lo), rest)
  | _ => .error .shortWord

/-- The instruction whose bits are `w`, numbered as spec/opcode_table.json numbers them; its word is laid out as an image
lays it out and given to `decodeBytes`. No instruction is longer than 16 bits (R60). -/
def decodeTableWord (nbits w : Nat) : Option Instr :=
  if nbits ≤ 16 && w < 65536 then
    match decodeBytes [(BitVec.ofNat 16 w).extractLsb' 8 8, (BitVec.ofNat 16 w).extractLsb' 0 8] with
    | .ok (i, _) => some i
    | .error _ => none
  else none

/-! ### The encoder -/

/-- A field written into a word from bit `lo` up, every other bit zero (R62). -/
def place {n : Nat} (v : BitVec n) (lo : Nat) : Word := v.setWidth 16 <<< lo

/-- The low bits of a widened operand: what its field holds (R64). -/
def operandField (v : Word) (len : Nat) : BitVec len := v.setWidth len

/-- The word of a well-formed instruction, its fields where R62 puts them; the bits no rule reads are written as the
assembler of R67 writes them (zero, but NOT's instr[5:0] = 111111). -/
def encode : Instr → Word
  | .addReg dr sr1 sr2 => place Opcode.add.toBits 12 ||| place dr.toBits 9 ||| place sr1.toBits 6 ||| place sr2.toBits 0
  | .addImm dr sr1 imm =>
    place Opcode.add.toBits 12 ||| place dr.toBits 9 ||| place sr1.toBits 6 ||| place 0b1#1 5 ||| place (operandField imm 5) 0
  | .andReg dr sr1 sr2 => place Opcode.and.toBits 12 ||| place dr.toBits 9 ||| place sr1.toBits 6 ||| place sr2.toBits 0
  | .andImm dr sr1 imm =>
    place Opcode.and.toBits 12 ||| place dr.toBits 9 ||| place sr1.toBits 6 ||| place 0b1#1 5 ||| place (operandField imm 5) 0
  | .not dr sr => place Opcode.not.toBits 12 ||| place dr.toBits 9 ||| place sr.toBits 6 ||| place 0b111111#6 0
  | .br n z p off =>
    place Opcode.br.toBits 12 ||| place (BitVec.ofBool n) 11 ||| place (BitVec.ofBool z) 10 ||| place (BitVec.ofBool p) 9 |||
      place (operandField off 9) 0
  | .jmp base => place Opcode.jmp.toBits 12 ||| place base.toBits 6
  | .jsr off => place Opcode.jsr.toBits 12 ||| place 0b1#1 11 ||| place (operandField off 11) 0
  | .jsrr base => place Opcode.jsr.toBits 12 ||| place base.toBits 6
  | .ld dr off => place Opcode.ld.toBits 12 ||| place dr.toBits 9 ||| place (operandField off 9) 0
  | .ldi dr off => place Opcode.ldi.toBits 12 ||| place dr.toBits 9 ||| place (operandField off 9) 0
  | .ldr dr base off => place Opcode.ldr.toBits 12 ||| place dr.toBits 9 ||| place base.toBits 6 ||| place (operandField off 6) 0
  | .lea dr off => place Opcode.lea.toBits 12 ||| place dr.toBits 9 ||| place (operandField off 9) 0
  | .st sr off => place Opcode.st.toBits 12 ||| place sr.toBits 9 ||| place (operandField off 9) 0
  | .sti sr off => place Opcode.sti.toBits 12 ||| place sr.toBits 9 ||| place (operandField off 9) 0
  | .str sr base off => place Opcode.str.toBits 12 ||| place sr.toBits 9 ||| place base.toBits 6 ||| place (operandField off 6) 0
  | .trap v => place Opcode.trap.toBits 12 ||| place v 0
  | .reserved8 => place Opcode.reserved8.toBits 12
  | .reserved13 => place Opcode.reserved13.toBits 12

/-! ### The rows of the opcode table -/

/-- The match value and the mask of an instruction's row in spec/opcode_table.json, as its rule states them (R68, R81 to
R85, R101, R103, R106, R107, R121 to R124, R140 to R142, R160). -/
def Instr.row : Instr → Word × Word
  | .addReg _ _ _ => (0x1000, 0xF020)
  | .addImm _ _ _ => (0x1020, 0xF020)
  | .andReg _ _ _ => (0x5000, 0xF020)
  | .andImm _ _ _ => (0x5020, 0xF020)
  | .not _ _ => (0x9000, 0xF000)
  | .br _ _ _ _ => (0x0000, 0xF000)
  | .jmp _ => (0xC000, 0xF000)
  | .jsr _ => (0x4800, 0xF800)
  | .jsrr _ => (0x4000, 0xF800)
  | .ld _ _ => (0x2000, 0xF000)
  | .ldi _ _ => (0xA000, 0xF000)
  | .ldr _ _ _ => (0x6000, 0xF000)
  | .lea _ _ => (0xE000, 0xF000)
  | .st _ _ => (0x3000, 0xF000)
  | .sti _ _ => (0xB000, 0xF000)
  | .str _ _ _ => (0x7000, 0xF000)
  | .trap _ => (0xF000, 0xF000)
  | .reserved8 => (0x8000, 0xF000)
  | .reserved13 => (0xD000, 0xF000)

/-- The bits of an instruction's format that no rule reads, R62's `x` (R67; R68 for the reserved opcodes). -/
def Instr.ignoredBits : Instr → Word
  | .addReg _ _ _ => 0x0018
  | .addImm _ _ _ => 0
  | .andReg _ _ _ => 0x0018
  | .andImm _ _ _ => 0
  | .not _ _ => 0x003F
  | .br _ _ _ _ => 0
  | .jmp _ => 0x0E3F
  | .jsr _ => 0
  | .jsrr _ => 0x063F
  | .ld _ _ => 0
  | .ldi _ _ => 0
  | .ldr _ _ _ => 0
  | .lea _ _ => 0
  | .st _ _ => 0
  | .sti _ _ => 0
  | .str _ _ _ => 0
  | .trap _ => 0x0F00
  | .reserved8 => 0x0FFF
  | .reserved13 => 0x0FFF

end Sys2Proof
end

