-- ==== Sys2Proof/Config.lean ====
section
/-! DEFINITION. What spec/ leaves OPEN or to a draw (00_scope.md R5; 92_eei_decisions.md D13, D15, D16): opaque constants
without a body, so that no proof can see a value. The parameters to which the spec gives a value are in
Sys2Proof/Machine/Params.lean. -/

namespace Sys2Proof.Config

/-- `IN_PROMPT`: the fixed byte string IN writes first (R164, D16). Log entry 17. -/
opaque inPrompt : List Byte

/-- `HALT_MSG`: the fixed byte string HALT writes (R166, D16). Log entry 17. -/
opaque haltMsg : List Byte

/-- `EOF_SENTINEL`, drawn anew at every use (R169, D15): FREE VALUE, applied to `State.draws`. Log entry 16. -/
opaque eofSentinel : Nat → Word

/-- Whether a poll at end of stream answers "ready" (R59, D15): FREE VALUE, applied to `State.draws`. Log entry 16. -/
opaque eofPollReady : Nat → Bool

/-- IN's echo at end of stream, any one byte or none (R164, D15): FREE VALUE, applied to `State.draws`. Log entry 16. -/
opaque eofEcho : Nat → Option Byte

/-- Whether PC holds PCinc (true) or pc0 (false) after a fatal decode error (R182, D13): FREE VALUE, applied to
`State.draws`. Log entry 14. -/
opaque abortPcIncremented : Nat → Bool

end Sys2Proof.Config
end

