-- ==== Sys2Proof/Machine/Params.lean ====
section
/-! DEFINITION. The implementation parameters to which spec/ gives a value (00_scope.md R5; 92_eei_decisions.md). They stand
under Machine/ so that a later repair can mend a value; the OPEN ones are opaque constants of Sys2Proof/Config.lean. -/

namespace Sys2Proof.Machine

/-- KBSR's address (R42). -/
def Params.kbsr : Word := 0xFE00

/-- KBDR's address (R42). -/
def Params.kbdr : Word := 0xFE02

/-- `KBSR_READY` (R44, D5). Log entry 6. -/
def Params.kbsrReady : Word := 0x8000

/-- `COND_RESET`'s default (R36, C1, D4). Log entry 2. -/
def Params.condReset : Word := 0x0001

/-- The values R36 admits for `COND_RESET`: 0x0000 and 0x0001. -/
def Params.condResetAdmitted (v : Word) : Bool := v == 0x0000 || v == 0x0001

/-- The PC of `State.reset`, in which no image is loaded and so no origin exists. DESIGN CHOICE 0x0000: log entry 3. -/
def Params.originWithoutImage : Word := 0x0000

/-- `TRAP_LINK_R7`'s default (R168, D8). Log entry 9. -/
def Params.trapLinkR7 : Bool := false

/-- `JSRR_READ_BASE_FIRST`'s default (R107, D10). Log entry 11. -/
def Params.jsrrReadBaseFirst : Bool := false

/-- The PC value whose fetch wraps the counter (R184). -/
def Params.lastAddress : Word := 0xFFFF

/-- How many words memory has, so how many reads of a string service visit every word once (R32, R210). -/
def Params.memoryWords : Nat := 65536

end Sys2Proof.Machine
end

