-- ==== Sys2Proof/Machine/State.lean ====
section
/-! DEFINITION. Everything spec/ gives the machine to hold (10_state.md R20 to R36), as plain data, its reset value, and
the reasons a step can stop. INVENTORY.md's "State" lists each field with its rule. -/

namespace Sys2Proof.Machine

/-- The general registers, R0 to R7 (R20, R21). -/
structure Regs where
  r0 : Word
  r1 : Word
  r2 : Word
  r3 : Word
  r4 : Word
  r5 : Word
  r6 : Word
  r7 : Word
  deriving DecidableEq, Repr

/-- One memory cell: an address and the word it holds. The smallest addressable unit is a 16-bit word (R40, R51), so a
cell is a word: log entry 1. -/
abbrev Cell := Nat × Word

/-- Memory (R32) as the cells that do not hold 0x0000, addresses strictly rising; an unlisted address reads 0x0000, the
value R36 gives every word the image does not cover. -/
abbrev Memory := List Cell

/-- The reasons of Halted (R29). -/
inductive HaltReason where
  /-- A HALT service stopped the engine (R166). -/
  | haltTrap
  /-- The fetch increment wrapped from 0xFFFF (R184). -/
  | pcOverflow
  deriving DecidableEq, Repr

/-- The events of R181. -/
inductive EventCode where
  /-- Code 1: a fetched word with instr[15:12] in {8, 13}. -/
  | reservedOpcode
  /-- Code 2: a step with pc0 = 0xFFFF. -/
  | pcOverflow
  /-- Code 3: TRAP with a vector outside 0x20..0x25. -/
  | undefinedTrapVector
  /-- Code 4: GETC or IN at end of stream. -/
  | consoleEndOfStream
  deriving DecidableEq, Repr

/-- The engine's control state E with what its outputs carry: `halt_reason`, valid when Halted, and `fault_cause` and
`fault_info` = (pc0, instr), valid when Aborted (R29, R34, R181). -/
inductive Engine where
  | running
  | halted (reason : HaltReason)
  | aborted (cause : EventCode) (pc0 instr : Word)
  deriving DecidableEq, Repr

/-- A mark kept for the whole run: a code 3 or code 4 event with its (pc0, instr) (R181). -/
structure Mark where
  code  : EventCode
  pc0   : Word
  instr : Word
  deriving DecidableEq, Repr

/-- What the host's console is still to answer, in order (R13, R31, R35): log entry 20. -/
inductive ConAnswer where
  /-- One `con_poll` finds no byte; a blocking `con_read` waits past it. -/
  | notReady
  /-- The next byte of the input stream, available to a poll and to a read. -/
  | byte (b : Byte)
  /-- The stream has ended, and stays ended. -/
  | endOfStream
  deriving DecidableEq, Repr

/-- An event on the output ports `con_out` and `con_flush` (R34, R170). -/
inductive ConEvent where
  | out (b : Byte)
  | flush
  deriving DecidableEq, Repr

/-- A console service whose step has not ended (R210): log entry 21. -/
inductive InFlight where
  /-- GETC waits for `con_read`. -/
  | getc
  /-- IN has written its prompt and waits for `con_read`. -/
  | inRead
  /-- PUTS has read every word of memory without a terminator and goes on at `a`. -/
  | puts (a : Word)
  /-- PUTSP has read every word of memory without a terminator and goes on at `a`. -/
  | putsp (a : Word)
  deriving DecidableEq, Repr

/-- The machine. `pc0` and `instr` are the hidden state of the current step (R6, R31): nothing reads them after it. -/
structure State where
  regs     : Regs
  pc       : Word
  cond     : Word
  mem      : Memory
  engine   : Engine
  pc0      : Word
  instr    : Word
  inFlight : Option InFlight
  conIn    : List ConAnswer
  conOut   : List ConEvent
  marks    : List Mark
  draws    : Nat
  deriving DecidableEq, Repr

/-- Why a step request is not a step. R30: "A model gives the state no successor". -/
inductive Fault where
  /-- Raised by `step` when E = Halted, with the reason E reports; safe: the machine makes no change there. -/
  | halted (reason : HaltReason)
  /-- Raised by `step` when E = Aborted, with the cause and information E reports (R182: a fault, never a good end);
  safe: the machine makes no change there. -/
  | aborted (cause : EventCode) (pc0 instr : Word)
  deriving DecidableEq, Repr

/-- Why an instruction has no meaning here. -/
inductive Refusal where
  /-- Raised by `exec` for an instruction that has no meaning yet; no arm raises it; safe. -/
  | notModelled (mnemonic : String)
  deriving DecidableEq, Repr

/-- R0 to R7 all 0x0000 (R36). -/
def Regs.zero : Regs := ⟨0, 0, 0, 0, 0, 0, 0, 0⟩

/-- The initial state of R36 and R200, for a value of `COND_RESET` and an origin, before an image's words are stored. -/
def State.resetWith (condReset origin : Word) : State where
  regs := Regs.zero
  pc := origin
  cond := condReset
  mem := []
  engine := .running
  pc0 := 0
  instr := 0
  inFlight := none
  conIn := []
  conOut := []
  marks := []
  draws := 0

/-- The machine right after reset: R36 at the default `COND_RESET`, with no image loaded (log entries 2 and 3). -/
def State.reset : State := State.resetWith Params.condReset Params.originWithoutImage

end Sys2Proof.Machine
end

