-- ==== Sys2Proof/Machine/Ops.lean ====
section
/-! DEFINITION. The named operations on memory, registers, console and engine: R11 to R14's primitives, the memory access
layer with its keyboard intercept (20_memory.md), the fetch (R24), and the events of 60_exceptions.md. -/

namespace Sys2Proof.Machine

/-! ### Registers (R11, R20 to R22) -/

/-- `x[i]` as a value. -/
def Regs.get (x : Regs) : Reg → Word
  | .r0 => x.r0
  | .r1 => x.r1
  | .r2 => x.r2
  | .r3 => x.r3
  | .r4 => x.r4
  | .r5 => x.r5
  | .r6 => x.r6
  | .r7 => x.r7

/-- `x[i] <- v`. -/
def Regs.set (x : Regs) (r : Reg) (v : Word) : Regs :=
  match r with
  | .r0 => { x with r0 := v }
  | .r1 => { x with r1 := v }
  | .r2 => { x with r2 := v }
  | .r3 => { x with r3 := v }
  | .r4 => { x with r4 := v }
  | .r5 => { x with r5 := v }
  | .r6 => { x with r6 := v }
  | .r7 => { x with r7 := v }

/-- `x[i]` of the machine (R11). -/
def State.reg (s : State) (r : Reg) : Word := s.regs.get r

/-- `x[i] <- v` on the machine (R11). -/
def State.setReg (s : State) (r : Reg) (v : Word) : State := { s with regs := s.regs.set r v }

/-- `pc <- v` (R11). -/
def State.setPc (s : State) (v : Word) : State := { s with pc := v }

/-- `zext_16(b)` (R9). -/
def zext16 (b : Byte) : Word := b.setWidth 16

/-- `w[7:0]` (R6). -/
def lowByte (w : Word) : Byte := w.extractLsb' 0 8

/-- `w[15:8]` (R6). -/
def highByte (w : Word) : Byte := w.extractLsb' 8 8

/-! ### The storage array (R32, R41) -/

/-- The word at an address; an unlisted address reads 0x0000 (R36). -/
def Memory.read : Memory → Nat → Word
  | [], _ => 0
  | (k, v) :: m, a => if a = k then v else Memory.read m a

/-- The memory without an entry for the address: it reads 0x0000. -/
def Memory.erase : Memory → Nat → Memory
  | [], _ => []
  | (k, v) :: m, a => if a = k then Memory.erase m a else (k, v) :: Memory.erase m a

/-- The memory with the address holding `v`, entered where the rising order puts it. -/
def Memory.insert : Memory → Nat → Word → Memory
  | [], a, v => [(a, v)]
  | (k, u) :: m, a, v =>
    if a < k then (a, v) :: (k, u) :: m
    else if a = k then (a, v) :: m
    else (k, u) :: Memory.insert m a v

/-- `M[a] <- v` on the cells; storing 0x0000 removes the entry, so that equal memories are equal lists. -/
def Memory.write (m : Memory) (a : Nat) (v : Word) : Memory :=
  if v = 0 then Memory.erase m a else Memory.insert m a v

/-- The cells from address `lo` on: strictly rising, inside the address space, none holding 0x0000. -/
def Memory.wfFrom (lo : Nat) : Memory → Bool
  | [] => true
  | (k, v) :: m => decide (lo ≤ k) && decide (k < 65536) && decide (v ≠ 0) && Memory.wfFrom (k + 1) m

/-- Memory's canonical form. -/
def Memory.wf (m : Memory) : Bool := Memory.wfFrom 0 m

/-- `RawRead(a)`: `M[a]` with no side effect (R12, R48). -/
def State.rawRead (s : State) (a : Word) : Word := Memory.read s.mem a.toNat

/-- `M[a] <- v`: the direct array write of R12. -/
def State.rawWrite (s : State) (a v : Word) : State := { s with mem := Memory.write s.mem a.toNat v }

/-! ### The console ports (R13, R34) -/

/-- What a blocking `con_read` yields. -/
inductive ReadResult where
  | byte (b : Byte)
  | endOfStream
  /-- The host has supplied neither a byte nor end of stream yet. -/
  | waiting
  deriving DecidableEq, Repr

/-- A blocking read over the host's answers, and the answers left: it waits past `notReady`, removes the byte it
returns, and leaves an ended stream ended (R13, R45). -/
def readAnswers : List ConAnswer → ReadResult × List ConAnswer
  | [] => (.waiting, [])
  | .notReady :: rest => readAnswers rest
  | .byte b :: rest => (.byte b, rest)
  | .endOfStream :: rest => (.endOfStream, .endOfStream :: rest)

/-- `ConRead()` (R13). -/
def State.conRead (s : State) : ReadResult × State :=
  ((readAnswers s.conIn).1, { s with conIn := (readAnswers s.conIn).2 })

/-- `ConWrite(b)` (R13). -/
def State.conWrite (s : State) (b : Byte) : State := { s with conOut := s.conOut ++ [.out b] }

/-- `ConWrite` of every byte in order. -/
def State.conWriteAll (s : State) (bs : List Byte) : State := { s with conOut := s.conOut ++ bs.map ConEvent.out }

/-- `ConFlush()`: an event on the port with no effect on the block (R170, D17). -/
def State.conFlush (s : State) : State := { s with conOut := s.conOut ++ [.flush] }

/-- The counter of free values moves on, so that the next draw is a fresh one. Log entry 16. -/
def State.drawn (s : State) : State := { s with draws := s.draws + 1 }

/-! ### The memory access layer (20_memory.md R42 to R47, R59) -/

/-- A poll that finds a word for KBDR: KBSR holds the ready sentinel (R43, R44). -/
def State.pollReady (s : State) (data : Word) : State :=
  (s.rawWrite Params.kbsr Params.kbsrReady).rawWrite Params.kbdr data

/-- A poll that finds nothing: KBSR holds 0 and KBDR is left as it was (R43). -/
def State.pollNotReady (s : State) : State := s.rawWrite Params.kbsr 0

/-- The keyboard poll (R43, R45, R59). It never waits; a byte it finds leaves the stream; at end of stream its answer is
a draw. -/
def State.pollKeyboard (s : State) : State :=
  match s.conIn with
  | [] => s.pollNotReady
  | .notReady :: rest => { s with conIn := rest }.pollNotReady
  | .byte b :: rest => { s with conIn := rest }.pollReady (zext16 b)
  | .endOfStream :: _ =>
    if Config.eofPollReady s.draws then s.drawn.pollReady (Config.eofSentinel s.draws) else s.drawn.pollNotReady

/-- The state after `MemRead(a, 1)`: only a read of KBSR has an effect beyond the array (R42, R43). -/
def State.afterRead (s : State) (a : Word) : State := if a = Params.kbsr then s.pollKeyboard else s

/-- `MemRead(a, 1)` (R43): the word and the state after the read. -/
def State.memRead (s : State) (a : Word) : Word × State := ((s.afterRead a).rawRead a, s.afterRead a)

/-- `MemWrite(a, 1, v)` (R46): it stores unconditionally and has no device effect. -/
def State.memWrite (s : State) (a v : Word) : State := s.rawWrite a v

/-! ### The fetch (R24) -/

/-- `pc0 <- pc; instr <- MemRead(pc0, 1); pc <- pc0 + 1 (mod 2^16)` (R24). -/
def State.fetch (s : State) : State :=
  { (s.memRead s.pc).2 with pc0 := s.pc, instr := (s.memRead s.pc).1, pc := s.pc + 1 }

/-! ### Engine events (R14, R181 to R188) -/

/-- `halt(reason)` (R14). -/
def State.halt (s : State) (reason : HaltReason) : State := { s with engine := .halted reason }

/-- `raise RESERVED_OPCODE` (R182): E becomes Aborted with the cause and (pc0, instr); PC holds pc0 or PCinc, a draw. -/
def State.abort (s : State) : State :=
  { s with
    engine := .aborted .reservedOpcode s.pc0 s.instr
    pc := if Config.abortPcIncremented s.draws then s.pc else s.pc0
    draws := s.draws + 1 }

/-- A code 3 or code 4 event leaves the engine Running and marks the run (R181, R185, R186). -/
def State.mark (s : State) (code : EventCode) : State := { s with marks := s.marks ++ [⟨code, s.pc0, s.instr⟩] }

/-- The end of a step: the overflow check runs after a complete execute phase that did not abort, and its reason
overrides HaltTrap (R184, R188). While a service is in flight the execute phase has not ended. -/
def State.endStep (s : State) : State :=
  match s.engine, s.inFlight with
  | .aborted _ _ _, _ => s
  | _, some _ => s
  | _, none => if s.pc0 = Params.lastAddress then s.halt .pcOverflow else s

/-! ### Ports read by the host (R34, R181) -/

/-- The numbers of R181's codes. -/
def EventCode.code : EventCode → Nat
  | .reservedOpcode => 1
  | .pcOverflow => 2
  | .undefinedTrapVector => 3
  | .consoleEndOfStream => 4

/-- The output `halt_reason`, valid when E = Halted. -/
def State.haltReason (s : State) : Option HaltReason :=
  match s.engine with
  | .halted r => some r
  | _ => none

/-- The output `fault_cause`, valid when E = Aborted. -/
def State.faultCause (s : State) : Option Nat :=
  match s.engine with
  | .aborted c _ _ => some c.code
  | _ => none

/-- The output `fault_info`, valid when E = Aborted. -/
def State.faultInfo (s : State) : Option (Word × Word) :=
  match s.engine with
  | .aborted _ p i => some (p, i)
  | _ => none

/-- The output `step_done`: no step is in progress. -/
def State.stepDone (s : State) : Bool := s.inFlight.isNone

/-- The bytes written on `con_out`, in order (R170, R204). -/
def State.output (s : State) : List Byte :=
  s.conOut.filterMap fun e =>
    match e with
    | .out b => some b
    | .flush => none

/-- `query` of a register slot: 0 to 7 the general registers, 8 PC, 9 COND (R20, R34). -/
def State.queryReg (s : State) (slot : Fin 10) : Word :=
  match slot with
  | 0 => s.reg .r0
  | 1 => s.reg .r1
  | 2 => s.reg .r2
  | 3 => s.reg .r3
  | 4 => s.reg .r4
  | 5 => s.reg .r5
  | 6 => s.reg .r6
  | 7 => s.reg .r7
  | 8 => s.pc
  | 9 => s.cond

/-- `query` of a memory word, with no side effect (R34). -/
def State.queryMem (s : State) (a : Word) : Word := s.rawRead a

/-- The host makes further console answers available (R35). -/
def State.hostSupplies (s : State) (answers : List ConAnswer) : State := { s with conIn := s.conIn ++ answers }

end Sys2Proof.Machine
end

