-- ==== Sys2Proof/Machine/Flags.lean ====
section
/-! DEFINITION. The flag logic (40_operate.md R80) and the conditional execution path (41_control.md R100), over COND's bit
assignment of R27 (N = bit 2, Z = bit 1, P = bit 0: D3, log entry 5). -/

namespace Sys2Proof.Machine

/-- COND with only N set (R27). -/
def condN : Word := 0x0004

/-- COND with only Z set (R27). -/
def condZ : Word := 0x0002

/-- COND with only P set (R27). -/
def condP : Word := 0x0001

/-- The value R80 gives COND for a result. -/
def flagsOf (v : Word) : Word :=
  if v = 0 then condZ
  else if v.getLsbD 15 then condN
  else condP

/-- `setcc(v)` (R80). -/
def State.setcc (s : State) (v : Word) : State := { s with cond := flagsOf v }

/-- `x[DR] <- v; setcc(v)`: how every flag-updating instruction ends (R80). -/
def State.writeResult (s : State) (dr : Reg) (v : Word) : State := (s.setReg dr v).setcc v

/-- `cond.N` (R27). -/
def flagN (cond : Word) : Bool := cond.getLsbD 2

/-- `cond.Z` (R27). -/
def flagZ (cond : Word) : Bool := cond.getLsbD 1

/-- `cond.P` (R27). -/
def flagP (cond : Word) : Bool := cond.getLsbD 0

/-- R100: `taken = (n and cond.N) or (z and cond.Z) or (p and cond.P)`. -/
def branchTaken (n z p : Bool) (cond : Word) : Bool := n && flagN cond || z && flagZ cond || p && flagP cond

end Sys2Proof.Machine
end

