-- ==== Sys2Proof/Machine/Operands.lean ====
section
/-! DEFINITION. The operand forms: the effective addresses of 42_load.md R120 (used by loads and stores) and the targets of
41_control.md R104. While an instruction executes, `pc` holds PCinc (R24). All sums are modulo 2^16 (R25). -/

namespace Sys2Proof.Machine

/-- PC-relative: `PCinc + sext(offset)` (R120, R101, R106); the offset is already widened (R64). -/
def State.eaPcRelative (s : State) (off : Word) : Word := s.pc + off

/-- Base plus offset: `x[BaseR] + sext_6(offset6)` (R120). -/
def State.eaBaseOffset (s : State) (base : Reg) (off : Word) : Word := s.reg base + off

/-- Indirect: `MemRead(PCinc + sext_9(offset9), 1)`, the pointer and the state after its read (R120). -/
def State.eaIndirect (s : State) (off : Word) : Word × State := s.memRead (s.eaPcRelative off)

end Sys2Proof.Machine
end

