-- ==== Sys2Proof/Machine/Control.lean ====
section
/-! DEFINITION. Control transfer, 41_control.md: BR, JMP, JSR, JSRR. No target faults (R104) and COND is never written
(R28). -/

namespace Sys2Proof.Machine

/-- BR (R101). -/
def execBr (n z p : Bool) (off : Word) (s : State) : Host.Outcome State Fault Refusal :=
  .next (if branchTaken n z p s.cond then s.setPc (s.eaPcRelative off) else s)

/-- JMP (R103). -/
def execJmp (base : Reg) (s : State) : Host.Outcome State Fault Refusal :=
  .next (s.setPc (s.reg base))

/-- The link of JSR and JSRR: `x[7] <- PCinc` (R106, R107). -/
def State.link (s : State) : State := s.setReg .r7 s.pc

/-- JSR (R106). -/
def execJsr (off : Word) (s : State) : Host.Outcome State Fault Refusal :=
  .next (s.link.setPc (s.eaPcRelative off))

/-- JSRR's link and jump under either value of `JSRR_READ_BASE_FIRST` (R107). -/
def State.linkAndJump (readBaseFirst : Bool) (base : Reg) (s : State) : State :=
  s.link.setPc (if readBaseFirst then s.reg base else s.link.reg base)

/-- JSRR (R107), at the parameter's default (D10). -/
def execJsrr (base : Reg) (s : State) : Host.Outcome State Fault Refusal :=
  .next (s.linkAndJump Params.jsrrReadBaseFirst base)

end Sys2Proof.Machine
end

