-- ==== Sys2Proof/Machine/Load.lean ====
section
/-! DEFINITION. Loads and address computation, 42_load.md: LD, LDI, LDR, LEA. Every MemRead has the keyboard side effect
of R43 at 0xFE00. -/

namespace Sys2Proof.Machine

/-- `v <- MemRead(ea, 1); x[DR] <- v; setcc(v)`: how the three loads end (R121 to R123). -/
def State.loadFrom (s : State) (dr : Reg) (ea : Word) : State := (s.memRead ea).2.writeResult dr (s.memRead ea).1

/-- LD (R121). -/
def execLd (dr : Reg) (off : Word) (s : State) : Host.Outcome State Fault Refusal :=
  .next (s.loadFrom dr (s.eaPcRelative off))

/-- LDI: the pointer, then its pointee (R122). -/
def execLdi (dr : Reg) (off : Word) (s : State) : Host.Outcome State Fault Refusal :=
  .next ((s.eaIndirect off).2.loadFrom dr (s.eaIndirect off).1)

/-- LDR; DR = BaseR uses the old base (R123). -/
def execLdr (dr base : Reg) (off : Word) (s : State) : Host.Outcome State Fault Refusal :=
  .next (s.loadFrom dr (s.eaBaseOffset base off))

/-- LEA: no memory is read, and the flags are the address's (R124). -/
def execLea (dr : Reg) (off : Word) (s : State) : Host.Outcome State Fault Refusal :=
  .next (s.writeResult dr (s.eaPcRelative off))

end Sys2Proof.Machine
end

