-- ==== Sys2Proof/Machine/Operate.lean ====
section
/-! DEFINITION. The operate family, 40_operate.md: ADD, AND, NOT. Sources are read before DR is written (R87). -/

namespace Sys2Proof.Machine

/-- ADD, register mode (R81). -/
def execAddReg (dr sr1 sr2 : Reg) (s : State) : Host.Outcome State Fault Refusal :=
  .next (s.writeResult dr (s.reg sr1 + s.reg sr2))

/-- ADD, immediate mode (R82). -/
def execAddImm (dr sr1 : Reg) (imm : Word) (s : State) : Host.Outcome State Fault Refusal :=
  .next (s.writeResult dr (s.reg sr1 + imm))

/-- AND, register mode (R83). -/
def execAndReg (dr sr1 sr2 : Reg) (s : State) : Host.Outcome State Fault Refusal :=
  .next (s.writeResult dr (s.reg sr1 &&& s.reg sr2))

/-- AND, immediate mode (R84). -/
def execAndImm (dr sr1 : Reg) (imm : Word) (s : State) : Host.Outcome State Fault Refusal :=
  .next (s.writeResult dr (s.reg sr1 &&& imm))

/-- NOT (R85). -/
def execNot (dr sr : Reg) (s : State) : Host.Outcome State Fault Refusal :=
  .next (s.writeResult dr (~~~ s.reg sr))

end Sys2Proof.Machine
end

