-- ==== Sys2Proof/Machine/Reserved.lean ====
section
/-! DEFINITION. The reserved opcodes 8 and 13: the fatal decode error of 30_encoding.md R68 and 60_exceptions.md R182. It
ends the step in the terminal state Aborted; `step` has no successor from there (R30). -/

namespace Sys2Proof.Machine

/-- Opcode 8 (R68, R182). -/
def execReserved8 (s : State) : Host.Outcome State Fault Refusal := .next s.abort

/-- Opcode 13 (R68, R182). -/
def execReserved13 (s : State) : Host.Outcome State Fault Refusal := .next s.abort

end Sys2Proof.Machine
end

