-- ==== Sys2Proof/Machine/Store.lean ====
section
/-! DEFINITION. Stores, 43_store.md: ST, STI, STR. Every MemWrite stores unconditionally (R46, R143); no flag is
written. -/

namespace Sys2Proof.Machine

/-- ST (R140). -/
def execSt (sr : Reg) (off : Word) (s : State) : Host.Outcome State Fault Refusal :=
  .next (s.memWrite (s.eaPcRelative off) (s.reg sr))

/-- STI: the pointer is read, with its poll at 0xFE00, before the write (R141). -/
def execSti (sr : Reg) (off : Word) (s : State) : Host.Outcome State Fault Refusal :=
  .next ((s.eaIndirect off).2.memWrite (s.eaIndirect off).1 (s.reg sr))

/-- STR (R142). -/
def execStr (sr base : Reg) (off : Word) (s : State) : Host.Outcome State Fault Refusal :=
  .next (s.memWrite (s.eaBaseOffset base off) (s.reg sr))

end Sys2Proof.Machine
end

