-- ==== Sys2Proof/Machine/Trap.lean ====
section
/-! DEFINITION. TRAP and the console services, 44_trap.md R160 to R170. PC stays PCinc and COND is never written (R160,
D9). A service that cannot end its step stays in flight, and the next step of the model goes on with it (R210, D22: log
entry 21). -/

namespace Sys2Proof.Machine

/-- The six services of R160. -/
inductive Service where
  | getc | out | puts | inChar | putsp | halt
  deriving DecidableEq, Repr

/-- R160's vector table; every other vector is undefined (R167). -/
def Service.ofVector (v : Byte) : Option Service :=
  if v = 0x20 then some .getc
  else if v = 0x21 then some .out
  else if v = 0x22 then some .puts
  else if v = 0x23 then some .inChar
  else if v = 0x24 then some .putsp
  else if v = 0x25 then some .halt
  else none

/-- A console step is still in progress. -/
def State.holdIn (s : State) (f : InFlight) : State := { s with inFlight := some f }

/-- The execute phase is complete. -/
def State.complete (s : State) : State := { s with inFlight := none }

/-- End of stream in GETC and IN: R0 receives a drawn sentinel and the run is marked with code 4 (R169, R186). -/
def State.receiveEndOfStream (s : State) : State :=
  ((s.setReg .r0 (Config.eofSentinel s.draws)).drawn).mark .consoleEndOfStream

/-- GETC's read: no echo, no output; it waits while the host answers nothing (R161). -/
def State.getcRead (s : State) : State :=
  match s.conRead with
  | (.byte b, t) => (t.setReg .r0 (zext16 b)).complete
  | (.endOfStream, t) => t.receiveEndOfStream.complete
  | (.waiting, t) => t.holdIn .getc

/-- IN's read, echo and flush, its prompt already written (R164). At end of stream the echo is a drawn byte or none. -/
def State.inReadEcho (s : State) : State :=
  match s.conRead with
  | (.byte b, t) => ((t.conWrite b).setReg .r0 (zext16 b)).conFlush.complete
  | (.endOfStream, t) => (t.conWriteAll (Config.eofEcho t.draws).toList).receiveEndOfStream.conFlush.complete
  | (.waiting, t) => t.holdIn .inRead

/-- The bytes PUTS writes for a word, or none where the word ends the string (R163). -/
def putsBytes (w : Word) : Option (List Byte) := if w = 0 then none else some [lowByte w]

/-- The bytes PUTSP writes for a word, low byte first, or none where the word ends the string (R165). -/
def putspBytes (w : Word) : Option (List Byte) :=
  if lowByte w = 0 then none
  else if highByte w = 0 then some [lowByte w]
  else some [lowByte w, highByte w]

/-- The loop of R163 and R165 for at most `fuel` words from `a` on, reading with RawRead: the bytes written, and whether
a terminator ended it. -/
def stringLoop (bytesOf : Word → Option (List Byte)) (m : Memory) : Nat → Word → List Byte × Bool
  | 0, _ => ([], false)
  | fuel + 1, a =>
    match bytesOf (Memory.read m a.toNat) with
    | none => ([], true)
    | some bs => (bs ++ (stringLoop bytesOf m fuel (a + 1)).1, (stringLoop bytesOf m fuel (a + 1)).2)

/-- One pass of a string service over at most every word of memory, so back to `a` where none ends the string; the flush
comes only after a terminator (R163, R165, D22). -/
def State.stringPass (s : State) (bytesOf : Word → Option (List Byte)) (a : Word) (again : InFlight) : State :=
  match stringLoop bytesOf s.mem Params.memoryWords a with
  | (bs, true) => (s.conWriteAll bs).conFlush.complete
  | (bs, false) => (s.conWriteAll bs).holdIn again

/-- PUTS from an address on (R163). -/
def State.putsFrom (s : State) (a : Word) : State := s.stringPass putsBytes a (.puts a)

/-- PUTSP from an address on (R165). -/
def State.putspFrom (s : State) (a : Word) : State := s.stringPass putspBytes a (.putsp a)

/-- A service (R161 to R166). -/
def State.serve (s : State) : Service → State
  | .getc => s.getcRead
  | .out => s.conWrite (lowByte (s.reg .r0))
  | .puts => s.putsFrom (s.reg .r0)
  | .inChar => (s.conWriteAll Config.inPrompt).inReadEcho
  | .putsp => s.putspFrom (s.reg .r0)
  | .halt => (s.conWriteAll Config.haltMsg).conFlush.halt .haltTrap

/-- A service in flight goes on where it was. -/
def State.resume (s : State) : InFlight → State
  | .getc => s.getcRead
  | .inRead => s.inReadEcho
  | .puts a => s.putsFrom a
  | .putsp a => s.putspFrom a

/-- The trap dispatcher (R160): a service, or for an undefined vector a no-op that marks the run with code 3 (R167,
R185). -/
def State.dispatchTrap (s : State) (v : Byte) : State :=
  match Service.ofVector v with
  | some sv => s.serve sv
  | none => s.mark .undefinedTrapVector

/-- `x[7] <- PCinc` under `TRAP_LINK_R7` = true, nothing under false (R168). -/
def State.trapLink (s : State) (link : Bool) : State := if link then s.setReg .r7 s.pc else s

/-- TRAP (R160), at `TRAP_LINK_R7`'s default (D8). -/
def execTrap (v : Byte) (s : State) : Host.Outcome State Fault Refusal :=
  .next ((s.trapLink Params.trapLinkR7).dispatchTrap v)

end Sys2Proof.Machine
end

