-- ==== Sys2Proof/Machine/Dispatch.lean ====
section
/-! DEFINITION. The execute phase of a step (40_operate.md to 44_trap.md, 60_exceptions.md R182): one arm per instruction
form of 30_encoding.md R70, on the state the fetch of R24 leaves. -/

namespace Sys2Proof.Machine

def exec (i : Instr) (s : State) : Host.Outcome State Fault Refusal :=
  match i with
  | .addReg dr sr1 sr2 => Sys2Proof.Machine.execAddReg dr sr1 sr2 s
  | .addImm dr sr1 imm => Sys2Proof.Machine.execAddImm dr sr1 imm s
  | .andReg dr sr1 sr2 => Sys2Proof.Machine.execAndReg dr sr1 sr2 s
  | .andImm dr sr1 imm => Sys2Proof.Machine.execAndImm dr sr1 imm s
  | .not dr sr => Sys2Proof.Machine.execNot dr sr s
  | .br n z p off => Sys2Proof.Machine.execBr n z p off s
  | .jmp base => Sys2Proof.Machine.execJmp base s
  | .jsr off => Sys2Proof.Machine.execJsr off s
  | .jsrr base => Sys2Proof.Machine.execJsrr base s
  | .ld dr off => Sys2Proof.Machine.execLd dr off s
  | .ldi dr off => Sys2Proof.Machine.execLdi dr off s
  | .ldr dr base off => Sys2Proof.Machine.execLdr dr base off s
  | .lea dr off => Sys2Proof.Machine.execLea dr off s
  | .st sr off => Sys2Proof.Machine.execSt sr off s
  | .sti sr off => Sys2Proof.Machine.execSti sr off s
  | .str sr base off => Sys2Proof.Machine.execStr sr base off s
  | .trap v => Sys2Proof.Machine.execTrap v s
  | .reserved8 => Sys2Proof.Machine.execReserved8 s
  | .reserved13 => Sys2Proof.Machine.execReserved13 s

end Sys2Proof.Machine
end

