-- ==== Sys2Proof/Machine/Cycle.lean ====
section
/-! DEFINITION. One step as 60_exceptions.md R188 orders it: fetch, decode, execute, overflow check; and where the next
step finds its instruction. It stands apart from Step.lean so that a later repair can mend it. -/

namespace Sys2Proof.Machine

/-- The overflow check after an execute phase (R184). -/
def endOutcome : Host.Outcome State Fault Refusal → Host.Outcome State Fault Refusal
  | .next s => .next s.endStep
  | .fault r => .fault r
  | .refused r => .refused r

/-- A new step: fetch, decode, execute, overflow check (R24, R70, R188). -/
def runInstruction (s : State) : Host.Outcome State Fault Refusal :=
  endOutcome (exec (decode s.fetch.instr) s.fetch)

/-- One step of the model. R30: a step requested when E is not Running is no step and has no successor. A service in
flight goes on with its own step (R210). -/
def cycle (s : State) : Host.Outcome State Fault Refusal :=
  match s.engine with
  | .running =>
    match s.inFlight with
    | none => runInstruction s
    | some f => .next (s.resume f).endStep
  | .halted r => .fault (.halted r)
  | .aborted c p i => .fault (.aborted c p i)

/-- `s` with the word stored at its PC and the engine ready to fetch it: Running, no service in flight. The word at
0xFE00 cannot be placed for a fetch, which polls first (R43, R47). -/
def placeInstruction (s : State) (w : Word) : State :=
  { s with mem := Memory.write s.mem s.pc.toNat w, engine := .running, inFlight := none }

end Sys2Proof.Machine
end

