-- ==== Sys2Proof/Machine/Step.lean ====
section
/-! DEFINITION. The step of the machine and where a test word is placed for it; both only call Machine/Cycle.lean. -/

namespace Sys2Proof.Machine

/-- One step (R188, R30). -/
def step (s : State) : Host.Outcome State Fault Refusal := cycle s

/-- `s` with the instruction whose bits are `w` where `step` fetches next. Every instruction is one word (R60), so bits
above 15 do not exist and `nbits` only repeats the table's length. -/
def State.withFetchWord (s : State) (_nbits w : Nat) : State := placeInstruction s (BitVec.ofNat 16 w)

end Sys2Proof.Machine
end

