-- ==== Sys2Proof/Machine/Image.lean ====
section
/-! DEFINITION. The `load` port: a program image and the initial state it gives (10_state.md R34, R36;
70_reset_and_hazards.md R200 to R202, D18). -/

namespace Sys2Proof.Machine

/-- Why an image is refused (D18). -/
inductive ImageError where
  /-- An odd number of bytes (R201). -/
  | oddLength
  /-- Fewer than two bytes (R201). -/
  | tooShort
  /-- origin + n exceeds 65536 (R202). -/
  | pastTop
  deriving DecidableEq, Repr

/-- An origin and the words stored from it on (R201). -/
structure Image where
  origin : Word
  words  : List Word
  deriving DecidableEq, Repr

/-- Big-endian words of a byte list; none for an odd number of bytes (R201). -/
def bigEndianWords : List Byte → Option (List Word)
  | [] => some []
  | [_] => none
  | hi :: lo :: rest => (bigEndianWords rest).map fun ws => (hi ++ lo) :: ws

/-- An image's bytes: "a big-endian 16-bit "origin" word followed by big-endian 16-bit instruction/data words" (R201);
odd, short and overlong images are refused (R201, R202). -/
def parseImage (bytes : List Byte) : Except ImageError Image :=
  match bigEndianWords bytes with
  | none => .error .oddLength
  | some [] => .error .tooShort
  | some (origin :: words) =>
    if origin.toNat + words.length ≤ Params.memoryWords then .ok ⟨origin, words⟩ else .error .pastTop

/-- `M[origin + i] <- word i` for every i (R201). -/
def Memory.storeWords : Memory → Nat → List Word → Memory
  | m, _, [] => m
  | m, a, w :: ws => Memory.storeWords (Memory.write m a w) (a + 1) ws

/-- The initial state of a run (R36, R200): zeroed memory with the image stored, PC at the origin. -/
def State.boot (condReset : Word) (img : Image) : State :=
  { State.resetWith condReset img.origin with mem := Memory.storeWords [] img.origin.toNat img.words }

/-- The `load` port (R34): the initial state an image's bytes give, or why they are refused. -/
def State.load (condReset : Word) (bytes : List Byte) : Except ImageError State :=
  match parseImage bytes with
  | .ok img => .ok (State.boot condReset img)
  | .error e => .error e

end Sys2Proof.Machine
end

