-- ==== Sys2Proof/Safety.lean ====
section
/-! DEFINITION. The terms claims are stated in: how a run ends (70_reset_and_hazards.md R204), the machine's invariant,
what an instruction leaves unchanged, and the summary tables of 10_state.md (R23, R26, R28). -/

namespace Sys2Proof.Machine

/-! ### How a run ends (R204) -/

/-- No code 3 or code 4 event has marked the run: it is in contract (R181, R185, R186). -/
def State.inContract (s : State) : Bool := s.marks.isEmpty

/-- The run is at its fault: E = Aborted (R182, R204). -/
def State.faulted (s : State) : Bool :=
  match s.engine with
  | .aborted _ _ _ => true
  | _ => false

/-- The run has ended well and in contract: E = Halted and no mark (R204). -/
def State.endedWell (s : State) : Bool :=
  match s.engine with
  | .halted _ => s.inContract
  | _ => false

/-! ### What COND may hold -/

/-- Exactly one flag is set and bits 15:3 are zero (R27, R28). -/
def condOneFlag (c : Word) : Prop := c = condN ∨ c = condZ ∨ c = condP

/-- COND holds one flag, or nothing, the other reset value R36 admits. -/
def condLegal (c : Word) : Prop := condOneFlag c ∨ c = 0x0000

/-! ### The invariant -/

/-- The word is TRAP with vector `v` (R160). -/
def isTrap (w : Word) (v : Byte) : Prop := decode w = .trap v

/-- The fetched word that a service in flight belongs to. -/
def flightWord : InFlight → Word → Prop
  | .getc, w => isTrap w 0x20
  | .inRead, w => isTrap w 0x23
  | .puts _, w => isTrap w 0x22
  | .putsp _, w => isTrap w 0x24

/-- A mark says what R181 lets it say: code 3 names a TRAP with an undefined vector, code 4 a GETC or an IN. -/
def markLegal (m : Mark) : Prop :=
  match m.code with
  | .undefinedTrapVector => ∃ v, isTrap m.instr v ∧ Service.ofVector v = none
  | .consoleEndOfStream => isTrap m.instr 0x20 ∨ isTrap m.instr 0x23
  | .reservedOpcode => False
  | .pcOverflow => False

/-- What the engine state says about the step that entered it: an abort names a reserved word (R182); HaltTrap comes from
HALT, and not at 0xFFFF; PcOverflow comes from a fetch at 0xFFFF (R184, R188). -/
def engineLegal (s : State) : Prop :=
  match s.engine with
  | .running => True
  | .halted .haltTrap => isTrap s.instr 0x25 ∧ s.pc0 ≠ Params.lastAddress
  | .halted .pcOverflow => s.pc0 = Params.lastAddress
  | .aborted c p i => c = .reservedOpcode ∧ p = s.pc0 ∧ i = s.instr ∧ (decode i = .reserved8 ∨ decode i = .reserved13)

/-- The invariant every step keeps: memory canonical, COND legal, the engine state and the marks true to the events they
report, and a service in flight only while Running and under its own TRAP. -/
structure State.Inv (s : State) : Prop where
  memory : Memory.wf s.mem = true
  cond : condLegal s.cond
  engine : engineLegal s
  flight : ∀ f, s.inFlight = some f → s.engine = .running ∧ flightWord f s.instr
  marks : ∀ m ∈ s.marks, markLegal m

/-! ### Frames -/

/-- Every general register is unchanged. -/
def keepsRegs (s t : State) : Prop := ∀ r, t.reg r = s.reg r

/-- Every general register but `d` is unchanged. -/
def keepsRegsBut (d : Reg) (s t : State) : Prop := ∀ r, r ≠ d → t.reg r = s.reg r

/-- Every memory word is unchanged. -/
def keepsMemory (s t : State) : Prop := ∀ a, t.rawRead a = s.rawRead a

/-- Every memory word but the one at `b` is unchanged. -/
def keepsMemoryBut (b : Word) (s t : State) : Prop := ∀ a, a ≠ b → t.rawRead a = s.rawRead a

/-- The console ports and the free values are untouched. -/
def keepsConsole (s t : State) : Prop := t.conIn = s.conIn ∧ t.conOut = s.conOut ∧ t.draws = s.draws

/-- The engine state, the step's hidden state and the run's marks are unchanged. -/
def keepsControl (s t : State) : Prop :=
  t.engine = s.engine ∧ t.inFlight = s.inFlight ∧ t.pc0 = s.pc0 ∧ t.instr = s.instr ∧ t.marks = s.marks

/-- COND as R80 sets it for a result. -/
def flagsAre (v cond : Word) : Prop :=
  (v = 0x0000 → cond = 0x0002) ∧ (v.getLsbD 15 = true → cond = 0x0004) ∧
    (v ≠ 0x0000 → v.getLsbD 15 = false → cond = 0x0001)

/-- `x[DR] <- v; setcc(v)`, and no other register (R80). -/
def writesResult (dr : Reg) (v : Word) (s t : State) : Prop :=
  t.reg dr = v ∧ keepsRegsBut dr s t ∧ flagsAre v t.cond

/-! ### The tables of 10_state.md -/

/-- R23's "writes" column, the general registers (TRAP_LINK_R7 = false). -/
def regsWritten : Instr → List Reg
  | .addReg dr _ _ => [dr]
  | .addImm dr _ _ => [dr]
  | .andReg dr _ _ => [dr]
  | .andImm dr _ _ => [dr]
  | .not dr _ => [dr]
  | .br _ _ _ _ => []
  | .jmp _ => []
  | .jsr _ => [.r7]
  | .jsrr _ => [.r7]
  | .ld dr _ => [dr]
  | .ldi dr _ => [dr]
  | .ldr dr _ _ => [dr]
  | .lea dr _ => [dr]
  | .st _ _ => []
  | .sti _ _ => []
  | .str _ _ _ => []
  | .trap v => if v = 0x20 ∨ v = 0x23 then [.r0] else []
  | .reserved8 => []
  | .reserved13 => []

/-- R28: the writers of COND are exactly ADD, AND, NOT, LD, LDI, LDR and LEA. -/
def condWritten : Instr → Bool
  | .addReg _ _ _ => true
  | .addImm _ _ _ => true
  | .andReg _ _ _ => true
  | .andImm _ _ _ => true
  | .not _ _ => true
  | .br _ _ _ _ => false
  | .jmp _ => false
  | .jsr _ => false
  | .jsrr _ => false
  | .ld _ _ => true
  | .ldi _ _ => true
  | .ldr _ _ _ => true
  | .lea _ _ => true
  | .st _ _ => false
  | .sti _ _ => false
  | .str _ _ _ => false
  | .trap _ => false
  | .reserved8 => false
  | .reserved13 => false

/-- The bits of BR's condition against COND, as R100's second formula reads them: `(instr[11:9] & cond[2:0]) != 0`. -/
def branchBits (n z p : Bool) (cond : Word) : Bool :=
  (BitVec.ofBool n ++ BitVec.ofBool z ++ BitVec.ofBool p) &&& cond.extractLsb' 0 3 != 0#3

/-- R26: how an instruction leaves PC, on the state after the fetch; a reserved opcode leaves pc0 or PCinc (R182) and is
not in R26. -/
def State.pcAfter (s : State) : Instr → Option Word
  | .addReg _ _ _ => some s.pc
  | .addImm _ _ _ => some s.pc
  | .andReg _ _ _ => some s.pc
  | .andImm _ _ _ => some s.pc
  | .not _ _ => some s.pc
  | .br n z p off => some (if branchBits n z p s.cond then s.pc + off else s.pc)
  | .jmp base => some (s.reg base)
  | .jsr off => some (s.pc + off)
  | .jsrr base => some (if base = .r7 then s.pc else s.reg base)
  | .ld _ _ => some s.pc
  | .ldi _ _ => some s.pc
  | .ldr _ _ _ => some s.pc
  | .lea _ _ => some s.pc
  | .st _ _ => some s.pc
  | .sti _ _ => some s.pc
  | .str _ _ _ => some s.pc
  | .trap _ => some s.pc
  | .reserved8 => none
  | .reserved13 => none

/-- The addresses an instruction reads with MemRead, in order (R47): LDI and STI read their pointer first. -/
def State.memReads (s : State) : Instr → List Word
  | .addReg _ _ _ => []
  | .addImm _ _ _ => []
  | .andReg _ _ _ => []
  | .andImm _ _ _ => []
  | .not _ _ => []
  | .br _ _ _ _ => []
  | .jmp _ => []
  | .jsr _ => []
  | .jsrr _ => []
  | .ld _ off => [s.pc + off]
  | .ldi _ off => [s.pc + off, (s.memRead (s.pc + off)).1]
  | .ldr _ base off => [s.reg base + off]
  | .lea _ _ => []
  | .st _ _ => []
  | .sti _ off => [s.pc + off]
  | .str _ _ _ => []
  | .trap _ => []
  | .reserved8 => []
  | .reserved13 => []

/-- The address an instruction stores to with MemWrite, if it stores (R47, R140 to R142). -/
def State.memWrites (s : State) : Instr → Option Word
  | .addReg _ _ _ => none
  | .addImm _ _ _ => none
  | .andReg _ _ _ => none
  | .andImm _ _ _ => none
  | .not _ _ => none
  | .br _ _ _ _ => none
  | .jmp _ => none
  | .jsr _ => none
  | .jsrr _ => none
  | .ld _ _ => none
  | .ldi _ _ => none
  | .ldr _ _ _ => none
  | .lea _ _ => none
  | .st _ off => some (s.eaPcRelative off)
  | .sti _ off => some (s.eaIndirect off).1
  | .str _ base off => some (s.eaBaseOffset base off)
  | .trap _ => none
  | .reserved8 => none
  | .reserved13 => none

end Sys2Proof.Machine
end

