-- ==== Sys2Proof/Certificates/Slice0/Obligations.lean ====
section
/-! DEFINITION. What is claimed of the machine: one `Prop` per obligation, each naming the rules of spec/ it formalises.
While an instruction executes, `s` is the state the fetch leaves, so `s.pc` is PCinc (10_state.md R24). Match values are those
each instruction's rule writes; the numbering behind them is R61's, which the spec says its source does not give (D2: log entry 4). -/

open Sys2Proof Sys2Proof.Machine

/-! ### The step -/

/-- R24, R70, R188: a step requested in Running executes the decoded word on the fetched state, and then, unless that
step aborted or its service is still in flight, a fetch from 0xFFFF halts with PcOverflow. Services in flight are the
model's: log entry 21. -/
def Obligations.StepRunsDecodedInstruction : Prop :=
  ∀ (s : State) (i : Instr), s.engine = .running → s.inFlight = none → decode s.fetch.instr = i → i.wellFormed = true →
    ∃ t, exec i s.fetch = .next t ∧
      (s.pc = 0xFFFF ∧ t.faultCause = none ∧ t.inFlight = none → step s = .next { t with engine := .halted .pcOverflow }) ∧
      (s.pc ≠ 0xFFFF ∨ t.faultCause ≠ none ∨ t.inFlight ≠ none → step s = .next t)

/-- R24: `pc0 <- pc; instr <- MemRead(pc0, 1); pc <- pc0 + 1 (mod 2^16)`: the word, memory and the console are those of
that read, so a fetch from 0xFE00 polls (R43, R47) and a fetch from any other address changes neither. The ready value
is the spec's choice: log entry 6. -/
def Obligations.FetchReadsAtPcAndIncrements : Prop :=
  ∀ s : State,
    s.fetch.pc0 = s.pc ∧ s.fetch.pc = BitVec.ofNat 16 ((s.pc.toNat + 1) % 65536) ∧
    s.fetch.instr = (s.memRead s.pc).1 ∧ keepsMemory (s.memRead s.pc).2 s.fetch ∧
    keepsConsole (s.memRead s.pc).2 s.fetch ∧
    (s.pc ≠ 0xFE00 → s.fetch.instr = s.rawRead s.pc ∧ keepsMemory s s.fetch ∧ keepsConsole s s.fetch) ∧
    (s.pc = 0xFE00 → (s.fetch.instr = 0x8000 ∨ s.fetch.instr = 0x0000) ∧ s.fetch.instr = s.fetch.rawRead 0xFE00 ∧
      (∀ a, a ≠ 0xFE00 → a ≠ 0xFE02 → s.fetch.rawRead a = s.rawRead a) ∧ s.fetch.conOut = s.conOut) ∧
    keepsRegs s s.fetch ∧ s.fetch.cond = s.cond ∧ s.fetch.engine = s.engine ∧ s.fetch.inFlight = s.inFlight ∧
    s.fetch.marks = s.marks

/-- R30: a step requested when E is not Running is not a step; the state has no successor and E is reported. The fault
is the model's form of no successor: log entry 22. -/
def Obligations.TerminalEngineHasNoSuccessor : Prop :=
  ∀ s : State,
    (∀ r, s.engine = .halted r → step s = .fault (.halted r)) ∧
    (∀ c p i, s.engine = .aborted c p i → step s = .fault (.aborted c p i)) ∧
    (s.engine = .running → ∃ t, step s = .next t)

/-- R184: a step whose pc0 is 0xFFFF, whose word is not reserved and whose execute phase ends halts with PcOverflow,
and everything else is as the instruction (or the service that was in flight) left it; a step with any other pc0 is
only its execute phase, which never halts with PcOverflow. Services in flight are the model's: log entry 21. -/
def Obligations.FetchFromTopHaltsAfterExecution : Prop :=
  (∀ (s u : State), s.engine = .running → s.inFlight = none → exec (decode s.fetch.instr) s.fetch = .next u →
    (s.pc = 0xFFFF → decode s.fetch.instr ≠ .reserved8 → decode s.fetch.instr ≠ .reserved13 → u.inFlight = none →
      step s = .next { u with engine := .halted .pcOverflow }) ∧
    (s.pc ≠ 0xFFFF → step s = .next u ∧ u.engine ≠ .halted .pcOverflow)) ∧
  (∀ (s : State) (f : InFlight), s.engine = .running → s.inFlight = some f →
    (s.pc0 = 0xFFFF → (s.resume f).inFlight = none → step s = .next { s.resume f with engine := .halted .pcOverflow }) ∧
    (s.pc0 ≠ 0xFFFF → step s = .next (s.resume f) ∧ (s.resume f).engine = .running))

/-- R68, R182, R183, R188: a fetched word with instr[15:12] = 8 or 13 ends the step Aborted, with cause code 1 and
information (pc0, instr), at 0xFFFF too; beyond the fetch nothing changes but PC, which holds pc0 or PCinc. The abort
as a next state, and PC as a free choice of two, are log entry 14. -/
def Obligations.ReservedOpcodeAborts : Prop :=
  ∀ s : State, s.engine = .running → s.inFlight = none →
    (s.fetch.instr.extractLsb' 12 4 = 8 ∨ s.fetch.instr.extractLsb' 12 4 = 13) →
    ∃ t, step s = .next t ∧ t.engine = .aborted .reservedOpcode s.pc s.fetch.instr ∧ t.faultCause = some 1 ∧
      t.faultInfo = some (s.pc, s.fetch.instr) ∧ (t.pc = s.pc ∨ t.pc = s.pc + 1) ∧ keepsRegs s t ∧ t.cond = s.cond ∧
      keepsMemory s.fetch t ∧ t.conIn = s.fetch.conIn ∧ t.conOut = s.conOut ∧ t.marks = s.marks ∧ t.inFlight = none

/-- R68, R182 for the two reserved constructors: the abort is their own effect, a next state in every state. The abort
as a next state, and PC as a free choice of two, are log entry 14. -/
def Obligations.ReservedFormsCompleteInAbort : Prop :=
  ∀ (w : Word) (s : State),
    (w &&& 0xF000 = 0x8000 → decode w = .reserved8 ∧ ∃ t, exec .reserved8 s = .next t ∧
      t.engine = .aborted .reservedOpcode s.pc0 s.instr ∧ (t.pc = s.pc0 ∨ t.pc = s.pc) ∧ keepsRegs s t ∧
      t.cond = s.cond ∧ keepsMemory s t ∧ t.conIn = s.conIn ∧ t.conOut = s.conOut ∧ t.inFlight = s.inFlight ∧
      t.pc0 = s.pc0 ∧ t.instr = s.instr ∧ t.marks = s.marks) ∧
    (w &&& 0xF000 = 0xD000 → decode w = .reserved13 ∧ ∃ t, exec .reserved13 s = .next t ∧
      t.engine = .aborted .reservedOpcode s.pc0 s.instr ∧ (t.pc = s.pc0 ∨ t.pc = s.pc) ∧ keepsRegs s t ∧
      t.cond = s.cond ∧ keepsMemory s t ∧ t.conIn = s.conIn ∧ t.conOut = s.conOut ∧ t.inFlight = s.inFlight ∧
      t.pc0 = s.pc0 ∧ t.instr = s.instr ∧ t.marks = s.marks)

/-! ### Reset and load -/

/-- R36, R200: the reset value of every piece of state, for both admitted values of COND_RESET, and State.reset takes
the default 0x0001. The fields spec/ calls not valid are not claimed. The default is the spec's choice: log entry 2.
-/
def Obligations.BootGivesResetValues : Prop :=
  State.reset.cond = 0x0001 ∧ (∀ r, State.reset.reg r = 0x0000) ∧ (∀ a, State.reset.rawRead a = 0x0000) ∧
  State.reset.engine = .running ∧
  ∀ (condReset : Word) (img : Image), (condReset = 0x0000 ∨ condReset = 0x0001) →
    img.origin.toNat + img.words.length ≤ 65536 →
    (∀ r, (State.boot condReset img).reg r = 0x0000) ∧ (State.boot condReset img).pc = img.origin ∧
    (State.boot condReset img).cond = condReset ∧ (State.boot condReset img).engine = .running ∧
    (State.boot condReset img).haltReason = none ∧ (State.boot condReset img).faultCause = none ∧
    (State.boot condReset img).faultInfo = none ∧
    (∀ k (h : k < img.words.length), (State.boot condReset img).rawRead (img.origin + BitVec.ofNat 16 k) = img.words[k]) ∧
    (∀ a : Word, a.toNat < img.origin.toNat ∨ img.origin.toNat + img.words.length ≤ a.toNat →
      (State.boot condReset img).rawRead a = 0x0000)

/-- R201, R202: which byte lists are images, and what they hold; the others are refused by name. Which images are
refused is the spec's choice: log entry 19. -/
def Obligations.ImageParsesBigEndianOrIsRefused : Prop :=
  (∀ bytes : List Byte, bytes.length % 2 = 1 → parseImage bytes = .error .oddLength) ∧
  parseImage [] = .error .tooShort ∧
  ∀ (b0 b1 : Byte) (rest : List Byte), rest.length % 2 = 0 →
    (b0.toNat * 256 + b1.toNat + rest.length / 2 > 65536 → parseImage (b0 :: b1 :: rest) = .error .pastTop) ∧
    (b0.toNat * 256 + b1.toNat + rest.length / 2 ≤ 65536 →
      ∃ img, parseImage (b0 :: b1 :: rest) = .ok img ∧ img.origin.toNat = b0.toNat * 256 + b1.toNat ∧
        img.words.length = rest.length / 2 ∧
        ∀ i (h : i < img.words.length) (h0 : 2 * i < rest.length) (h1 : 2 * i + 1 < rest.length),
          img.words[i].toNat = rest[2 * i].toNat * 256 + rest[2 * i + 1].toNat)

/-- The invariant holds at State.reset. -/
def Obligations.ResetMeetsInvariant : Prop := State.Inv State.reset

/-- Every step keeps the invariant, from every state that has it. Canonical memory, services in flight and the list of
marks are the model's: log entries 1, 21, 25. -/
def Obligations.StepKeepsInvariant : Prop := ∀ s t : State, State.Inv s → step s = .next t → State.Inv t

/-! ### Encoding -/

/-- R62 to R70: the decoder reads back every well-formed instruction the encoder writes. -/
def Obligations.DecodeOfEncodeIsIdentity : Prop := ∀ i : Instr, i.wellFormed = true → decode (encode i) = i

/-- R64, R70: every word decodes, and to an instruction whose operands are in their fields' ranges. -/
def Obligations.DecodedInstructionsAreWellFormed : Prop := ∀ w : Word, (decode w).wellFormed = true

/-- R69: every word is of exactly one row of the opcode table, the row of the instruction it decodes to. The numbering is R61's: log entry 4. -/
def Obligations.EveryWordMatchesExactlyItsRow : Prop :=
  ∀ (w : Word) (i : Instr), w &&& i.row.2 = i.row.1 ↔ i.row = (decode w).row

/-- R67 (and R68's "whatever its other 12 bits"): two words decode alike exactly when they are of one row and differ
in bits no rule reads only; the encoder spells those bits as the assembler does. That the bits are ignored is the
spec's choice: log entry 12. -/
def Obligations.DecodeIgnoresExactlyTheUnreadBits : Prop :=
  (∀ w w' : Word, decode w = decode w' ↔
    (decode w).row = (decode w').row ∧ (w ^^^ w') &&& ~~~(decode w).ignoredBits = 0) ∧
  (∀ i : Instr, encode i &&& i.ignoredBits = match i with | .not _ _ => 0x003F | _ => 0x0000)

/-- R8: `sext_N` for the four widths, in both of the rule's forms. -/
def Obligations.SignExtensionIsBothFormulas : Prop :=
  ∀ n, (n = 5 ∨ n = 6 ∨ n = 9 ∨ n = 11) → ∀ v : BitVec n,
    (v.getLsbD (n - 1) = false → sext v = v.setWidth 16) ∧
    (v.getLsbD (n - 1) = true → sext v = v.setWidth 16 ||| BitVec.ofNat 16 (0xFFFF - (2 ^ n - 1)) ∧
      ((sext v).toNat : Int) = ((v.toNat : Int) - 2 ^ n) % 2 ^ 16)

/-- Words spec/ writes out decode to the instructions it names (a sanity statement over fixed words). The numbering is R61's: log entry 4. -/
def Obligations.SpecWordsDecode : Prop :=
  decode 0x1042 = .addReg .r0 .r1 .r2 ∧ decode 0x1062 = .addImm .r0 .r1 2 ∧ decode 0x5642 = .andReg .r3 .r1 .r2 ∧
  decode 0x5B6F = .andImm .r5 .r5 15 ∧ decode 0x923F = .not .r1 .r0 ∧ decode 0x05FD = .br false true false (-3) ∧
  decode 0xC1C0 = .jmp .r7 ∧ decode 0x4C00 = .jsr (-1024) ∧ decode 0x47FF = .jsrr .r7 ∧ decode 0x2100 = .ld .r0 (-256) ∧
  decode 0x697F = .ldr .r4 .r5 (-1) ∧ decode 0x37FE = .st .r3 (-2) ∧ decode 0xFF25 = .trap 0x25 ∧
  decode 0xD123 = .reserved13

/-! ### Operate instructions -/

/-- R80: the three flags of `setcc(v)` as combinational logic, exactly one of them 1, with R27's bit values. The bit positions are R27's: log entry 5. -/
def Obligations.FlagLogicIsExclusive : Prop :=
  ∀ v : Word, flagN (flagsOf v) = v.getLsbD 15 ∧ (flagZ (flagsOf v) = true ↔ v.toNat = 0) ∧
    (flagP (flagsOf v) = true ↔ 0 < v.toInt) ∧ flagsAre v (flagsOf v) ∧ condOneFlag (flagsOf v)

/-- R81: ADD, register mode, with its frame. -/
def Obligations.AddRegisterModeResult : Prop :=
  ∀ (w : Word) (dr sr1 sr2 : Reg) (s : State), w &&& 0xF020 = 0x1000 → w.extractLsb' 9 3 = dr.toBits →
    w.extractLsb' 6 3 = sr1.toBits → w.extractLsb' 0 3 = sr2.toBits →
    decode w = .addReg dr sr1 sr2 ∧ ∃ t, exec (.addReg dr sr1 sr2) s = .next t ∧
      writesResult dr (BitVec.ofNat 16 (((s.reg sr1).toNat + (s.reg sr2).toNat) % 65536)) s t ∧ t.pc = s.pc ∧
      keepsMemory s t ∧ keepsConsole s t ∧ keepsControl s t

/-- R82: ADD, immediate mode, with its frame. -/
def Obligations.AddImmediateModeResult : Prop :=
  ∀ (w imm : Word) (dr sr1 : Reg) (s : State), w &&& 0xF020 = 0x1020 → w.extractLsb' 9 3 = dr.toBits →
    w.extractLsb' 6 3 = sr1.toBits → imm = (w.extractLsb' 0 5).signExtend 16 →
    decode w = .addImm dr sr1 imm ∧ ∃ t, exec (.addImm dr sr1 imm) s = .next t ∧
      writesResult dr (BitVec.ofNat 16 (((s.reg sr1).toNat + imm.toNat) % 65536)) s t ∧ t.pc = s.pc ∧
      keepsMemory s t ∧ keepsConsole s t ∧ keepsControl s t

/-- R83: AND, register mode, with its frame. -/
def Obligations.AndRegisterModeResult : Prop :=
  ∀ (w : Word) (dr sr1 sr2 : Reg) (s : State), w &&& 0xF020 = 0x5000 → w.extractLsb' 9 3 = dr.toBits →
    w.extractLsb' 6 3 = sr1.toBits → w.extractLsb' 0 3 = sr2.toBits →
    decode w = .andReg dr sr1 sr2 ∧ ∃ t, exec (.andReg dr sr1 sr2) s = .next t ∧
      writesResult dr (s.reg sr1 &&& s.reg sr2) s t ∧ t.pc = s.pc ∧
      keepsMemory s t ∧ keepsConsole s t ∧ keepsControl s t

/-- R84: AND, immediate mode, with its frame. -/
def Obligations.AndImmediateModeResult : Prop :=
  ∀ (w imm : Word) (dr sr1 : Reg) (s : State), w &&& 0xF020 = 0x5020 → w.extractLsb' 9 3 = dr.toBits →
    w.extractLsb' 6 3 = sr1.toBits → imm = (w.extractLsb' 0 5).signExtend 16 →
    decode w = .andImm dr sr1 imm ∧ ∃ t, exec (.andImm dr sr1 imm) s = .next t ∧
      writesResult dr (s.reg sr1 &&& imm) s t ∧ t.pc = s.pc ∧
      keepsMemory s t ∧ keepsConsole s t ∧ keepsControl s t

/-- R85: NOT, `0xFFFF - x[SR]`, with its frame. -/
def Obligations.NotResult : Prop :=
  ∀ (w : Word) (dr sr : Reg) (s : State), w &&& 0xF000 = 0x9000 → w.extractLsb' 9 3 = dr.toBits →
    w.extractLsb' 6 3 = sr.toBits →
    decode w = .not dr sr ∧ ∃ t, exec (.not dr sr) s = .next t ∧
      writesResult dr (0xFFFF - s.reg sr) s t ∧ t.pc = s.pc ∧
      keepsMemory s t ∧ keepsConsole s t ∧ keepsControl s t

/-! ### Control transfer -/

/-- R100, R101: BR is taken when `(instr[11:9] & cond[2:0]) != 0`, then jumps by the sign-extended offset; it writes
nothing but PC. -/
def Obligations.BranchTakenOrFallsThrough : Prop :=
  ∀ (w off : Word) (s : State), w &&& 0xF000 = 0x0000 → off = (w.extractLsb' 0 9).signExtend 16 →
    decode w = .br (w.getLsbD 11) (w.getLsbD 10) (w.getLsbD 9) off ∧
    ∃ t, exec (.br (w.getLsbD 11) (w.getLsbD 10) (w.getLsbD 9) off) s = .next t ∧
      (w.extractLsb' 9 3 &&& s.cond.extractLsb' 0 3 ≠ 0 → t.pc = s.pc + off) ∧
      (w.extractLsb' 9 3 &&& s.cond.extractLsb' 0 3 = 0 → t.pc = s.pc) ∧
      keepsRegs s t ∧ t.cond = s.cond ∧ keepsMemory s t ∧ keepsConsole s t ∧ keepsControl s t

/-- R102: after a flag-setting value v, BR's condition is the signed comparison its letters name. The bit positions are R27's: log entry 5. -/
def Obligations.BranchConditionsCompareWithZero : Prop :=
  ∀ (v : Word) (n z p : Bool), branchTaken n z p (flagsOf v) = true ↔
    (n = true ∧ v.toInt < 0) ∨ (z = true ∧ v.toInt = 0) ∨ (p = true ∧ 0 < v.toInt)

/-- R103: JMP, with its frame. -/
def Obligations.JumpSetsPc : Prop :=
  ∀ (w : Word) (base : Reg) (s : State), w &&& 0xF000 = 0xC000 → w.extractLsb' 6 3 = base.toBits →
    decode w = .jmp base ∧ ∃ t, exec (.jmp base) s = .next t ∧ t.pc = s.reg base ∧
      keepsRegs s t ∧ t.cond = s.cond ∧ keepsMemory s t ∧ keepsConsole s t ∧ keepsControl s t

/-- R106: JSR, with its frame. -/
def Obligations.JsrLinksAndJumps : Prop :=
  ∀ (w off : Word) (s : State), w &&& 0xF800 = 0x4800 → off = (w.extractLsb' 0 11).signExtend 16 →
    decode w = .jsr off ∧ ∃ t, exec (.jsr off) s = .next t ∧ t.reg .r7 = s.pc ∧ t.pc = s.pc + off ∧
      keepsRegsBut .r7 s t ∧ t.cond = s.cond ∧ keepsMemory s t ∧ keepsConsole s t ∧ keepsControl s t

/-- R107: JSRR under the spec's default, with its frame; and its two readings, which agree unless BaseR is R7. The
default is the spec's choice: log entry 11. -/
def Obligations.JsrrLinksThenReadsBase : Prop :=
  ∀ (w : Word) (base : Reg) (s : State), w &&& 0xF800 = 0x4000 → w.extractLsb' 6 3 = base.toBits →
    decode w = .jsrr base ∧ (∃ t, exec (.jsrr base) s = .next t ∧ t.reg .r7 = s.pc ∧
      t.pc = (if base = .r7 then s.pc else s.reg base) ∧
      keepsRegsBut .r7 s t ∧ t.cond = s.cond ∧ keepsMemory s t ∧ keepsConsole s t ∧ keepsControl s t) ∧
    (s.linkAndJump true base).pc = s.reg base ∧ (s.linkAndJump true base).reg .r7 = s.pc ∧
    (base ≠ .r7 → s.linkAndJump true base = s.linkAndJump false base)

/-! ### Loads -/

/-- R121: LD; beyond its destination and COND nothing changes but what MemRead(ea) does. -/
def Obligations.LdResult : Prop :=
  ∀ (w off : Word) (dr : Reg) (s : State), w &&& 0xF000 = 0x2000 → w.extractLsb' 9 3 = dr.toBits →
    off = (w.extractLsb' 0 9).signExtend 16 →
    decode w = .ld dr off ∧ ∃ t, exec (.ld dr off) s = .next t ∧
      writesResult dr (s.memRead (s.pc + off)).1 s t ∧ t.pc = s.pc ∧
      keepsMemory (s.memRead (s.pc + off)).2 t ∧ keepsConsole (s.memRead (s.pc + off)).2 t ∧ keepsControl s t

/-- R122: LDI, the pointer and then its pointee. -/
def Obligations.LdiResult : Prop :=
  ∀ (w off : Word) (dr : Reg) (s u v : State) (pointer value : Word), w &&& 0xF000 = 0xA000 →
    w.extractLsb' 9 3 = dr.toBits → off = (w.extractLsb' 0 9).signExtend 16 →
    s.memRead (s.pc + off) = (pointer, u) → u.memRead pointer = (value, v) →
    decode w = .ldi dr off ∧ ∃ t, exec (.ldi dr off) s = .next t ∧
      writesResult dr value s t ∧ t.pc = s.pc ∧ keepsMemory v t ∧ keepsConsole v t ∧ keepsControl s t

/-- R123: LDR, the address from the old base. -/
def Obligations.LdrResult : Prop :=
  ∀ (w off : Word) (dr base : Reg) (s : State), w &&& 0xF000 = 0x6000 → w.extractLsb' 9 3 = dr.toBits →
    w.extractLsb' 6 3 = base.toBits → off = (w.extractLsb' 0 6).signExtend 16 →
    decode w = .ldr dr base off ∧ ∃ t, exec (.ldr dr base off) s = .next t ∧
      writesResult dr (s.memRead (s.reg base + off)).1 s t ∧ t.pc = s.pc ∧
      keepsMemory (s.memRead (s.reg base + off)).2 t ∧ keepsConsole (s.memRead (s.reg base + off)).2 t ∧
      keepsControl s t

/-- R124: LEA writes the address and its flags, and reads no memory. -/
def Obligations.LeaResult : Prop :=
  ∀ (w off : Word) (dr : Reg) (s : State), w &&& 0xF000 = 0xE000 → w.extractLsb' 9 3 = dr.toBits →
    off = (w.extractLsb' 0 9).signExtend 16 →
    decode w = .lea dr off ∧ ∃ t, exec (.lea dr off) s = .next t ∧
      writesResult dr (BitVec.ofNat 16 ((s.pc.toNat + off.toNat) % 65536)) s t ∧ t.pc = s.pc ∧
      keepsMemory s t ∧ keepsConsole s t ∧ keepsControl s t

/-! ### Stores -/

/-- R140: ST stores x[SR] at PCinc + sext_9(offset9), 0xFE00 and 0xFE02 included, and changes nothing else. -/
def Obligations.StResult : Prop :=
  ∀ (w off : Word) (sr : Reg) (s : State), w &&& 0xF000 = 0x3000 → w.extractLsb' 9 3 = sr.toBits →
    off = (w.extractLsb' 0 9).signExtend 16 →
    decode w = .st sr off ∧ ∃ t, exec (.st sr off) s = .next t ∧
      t.rawRead (s.eaPcRelative off) = s.reg sr ∧ keepsMemoryBut (s.eaPcRelative off) s t ∧ s.eaPcRelative off = s.pc + off ∧
      keepsRegs s t ∧ t.cond = s.cond ∧ t.pc = s.pc ∧ keepsConsole s t ∧ keepsControl s t

/-- R141: STI reads its pointer (with a poll when it is at 0xFE00) and stores x[SR] there. -/
def Obligations.StiResult : Prop :=
  ∀ (w off : Word) (sr : Reg) (s u : State) (pointer : Word), w &&& 0xF000 = 0xB000 → w.extractLsb' 9 3 = sr.toBits →
    off = (w.extractLsb' 0 9).signExtend 16 → s.eaIndirect off = (pointer, u) →
    decode w = .sti sr off ∧ s.memRead (s.pc + off) = (pointer, u) ∧ ∃ t, exec (.sti sr off) s = .next t ∧
      t.rawRead pointer = s.reg sr ∧ keepsMemoryBut pointer u t ∧
      keepsRegs s t ∧ t.cond = s.cond ∧ t.pc = s.pc ∧ keepsConsole u t ∧ keepsControl s t

/-- R142: STR stores x[SR] at x[BaseR] + sext_6(offset6) and changes nothing else. -/
def Obligations.StrResult : Prop :=
  ∀ (w off : Word) (sr base : Reg) (s : State), w &&& 0xF000 = 0x7000 → w.extractLsb' 9 3 = sr.toBits →
    w.extractLsb' 6 3 = base.toBits → off = (w.extractLsb' 0 6).signExtend 16 →
    decode w = .str sr base off ∧ ∃ t, exec (.str sr base off) s = .next t ∧
      t.rawRead (s.eaBaseOffset base off) = s.reg sr ∧ keepsMemoryBut (s.eaBaseOffset base off) s t ∧
      s.eaBaseOffset base off = s.reg base + off ∧
      keepsRegs s t ∧ t.cond = s.cond ∧ t.pc = s.pc ∧ keepsConsole s t ∧ keepsControl s t

/-! ### The memory access layer -/

/-- R43: the three answers a live stream's poll can have and every plain read; R45: the byte found leaves the stream.
The ready value and the taking of the byte are the spec's choices, the list of answers the model's: log entries 6, 7,
20. -/
def Obligations.MemReadPollsOnlyKbsr : Prop :=
  ∀ (s : State) (a : Word),
    (a ≠ 0xFE00 → s.memRead a = (s.rawRead a, s)) ∧
    (a = 0xFE00 → ∀ b rest, s.conIn = .byte b :: rest → ∃ t, s.memRead a = (0x8000, t) ∧ t.rawRead 0xFE00 = 0x8000 ∧
      t.rawRead 0xFE02 = b.setWidth 16 ∧ (∀ c, c ≠ 0xFE00 → c ≠ 0xFE02 → t.rawRead c = s.rawRead c) ∧
      t.conIn = rest ∧ t.conOut = s.conOut ∧ t.draws = s.draws ∧ keepsRegs s t ∧ t.pc = s.pc ∧ t.cond = s.cond ∧
      keepsControl s t) ∧
    (a = 0xFE00 → (s.conIn = [] ∨ ∃ rest, s.conIn = .notReady :: rest) → ∃ t, s.memRead a = (0x0000, t) ∧
      t.rawRead 0xFE00 = 0x0000 ∧ keepsMemoryBut 0xFE00 s t ∧ t.conIn = s.conIn.drop 1 ∧ t.conOut = s.conOut ∧
      t.draws = s.draws ∧ keepsRegs s t ∧ t.pc = s.pc ∧ t.cond = s.cond ∧ keepsControl s t)

/-- R59: at end of stream the poll is a draw between "no input" and "ready, KBDR = EOF_SENTINEL"; the stream stays
ended. The draw is a free value: log entry 16. -/
def Obligations.PollAtEndOfStreamIsADraw : Prop :=
  ∀ (s : State) rest, s.conIn = .endOfStream :: rest → ∃ t : State, t.conIn = s.conIn ∧ t.conOut = s.conOut ∧
    keepsRegs s t ∧ t.pc = s.pc ∧ t.cond = s.cond ∧ keepsControl s t ∧
    ((s.memRead 0xFE00 = (0x0000, t) ∧ t.rawRead 0xFE00 = 0x0000 ∧ keepsMemoryBut 0xFE00 s t) ∨
     (s.memRead 0xFE00 = (0x8000, t) ∧ t.rawRead 0xFE00 = 0x8000 ∧ t.rawRead 0xFE02 = Config.eofSentinel s.draws ∧
       ∀ c, c ≠ 0xFE00 → c ≠ 0xFE02 → t.rawRead c = s.rawRead c))

/-- R41, R46: a write stores unconditionally at every address, touches no other word and no device; a second write of
the same address makes the memory the second write alone makes, so equal memories are equal data. The canonical list
is the model's: log entry 1. -/
def Obligations.MemWriteStoresOneWord : Prop :=
  ∀ (s : State) (a v w : Word), Memory.wf s.mem = true →
    (s.memWrite a v).rawRead a = v ∧ keepsMemoryBut a s (s.memWrite a v) ∧ keepsConsole s (s.memWrite a v) ∧
    keepsControl s (s.memWrite a v) ∧ (s.memWrite a v).memWrite a w = s.memWrite a w ∧
    s.memWrite a (s.rawRead a) = s ∧ Memory.wf (s.memWrite a v).mem = true

/-- R32: two canonical memories that read alike everywhere are the same data. The canonical list is the model's: log
entry 1. -/
def Obligations.MemoryIsItsContents : Prop :=
  ∀ m m' : Memory, Memory.wf m = true → Memory.wf m' = true →
    (∀ a : Word, Memory.read m a.toNat = Memory.read m' a.toNat) → m = m'

/-- R57: a stored word is what a fetch of its address reads (but at 0xFE00, which polls); so a step that executes ST with
offset 0 replaces the next instruction, and a store over the executing instruction itself does not change that step (R206). -/
def Obligations.StoreIsSeenByNextFetch : Prop :=
  (∀ (s : State) (a v : Word), a ≠ 0xFE00 → ((s.memWrite a v).setPc a).fetch.instr = v) ∧
  (∀ (s : State) (sr : Reg), s.engine = .running → s.inFlight = none → decode s.fetch.instr = .st sr 0 →
    s.pc ≠ 0xFFFF → s.pc + 1 ≠ 0xFE00 →
    ∃ t, step s = .next t ∧ t.pc = s.pc + 1 ∧ t.fetch.instr = s.reg sr) ∧
  (∀ (s : State) (sr : Reg), s.engine = .running → s.inFlight = none → decode s.fetch.instr = .st sr (-1) →
    ∃ t, step s = .next t ∧ t.rawRead s.pc = s.reg sr ∧ t.instr = s.fetch.instr ∧ t.pc = s.pc + 1)

/-! ### The console services -/

/-- R161: GETC takes the next byte of the stream, however often a poll would have failed before it came. The list of
the host's answers is the model's: log entry 20. -/
def Obligations.GetcReadsOneByte : Prop :=
  ∀ (s : State) (k : Nat) (b : Byte) (rest : List ConAnswer), s.inFlight = none →
    s.conIn = List.replicate k .notReady ++ .byte b :: rest →
    ∃ t, exec (.trap 0x20) s = .next t ∧ t.reg .r0 = b.setWidth 16 ∧ t.conIn = rest ∧ t.conOut = s.conOut ∧
      t.draws = s.draws ∧ keepsRegsBut .r0 s t ∧ t.cond = s.cond ∧ t.pc = s.pc ∧ keepsMemory s t ∧ keepsControl s t

/-- R169, R186: GETC at end of stream writes the sentinel, marks the run with code 4 and leaves the engine Running.
The sentinel is a free value, the list of answers the model's: log entries 16, 20. -/
def Obligations.GetcAtEndOfStreamMarksTheRun : Prop :=
  ∀ (s : State) (k : Nat) (rest : List ConAnswer), s.inFlight = none →
    s.conIn = List.replicate k .notReady ++ .endOfStream :: rest →
    ∃ t, exec (.trap 0x20) s = .next t ∧ t.reg .r0 = Config.eofSentinel s.draws ∧
      t.marks = s.marks ++ [⟨.consoleEndOfStream, s.pc0, s.instr⟩] ∧ t.engine = s.engine ∧ t.inFlight = none ∧
      t.conIn = .endOfStream :: rest ∧ t.conOut = s.conOut ∧ keepsRegsBut .r0 s t ∧ t.cond = s.cond ∧ t.pc = s.pc ∧
      t.pc0 = s.pc0 ∧ t.instr = s.instr ∧ keepsMemory s t

/-- R162: OUT writes the low byte of R0, and nothing else changes; no flush. -/
def Obligations.OutWritesLowByteOfR0 : Prop :=
  ∀ s : State, ∃ t, exec (.trap 0x21) s = .next t ∧
    t.conOut = s.conOut ++ [.out (BitVec.ofNat 8 ((s.reg .r0).toNat % 256))] ∧ t.conIn = s.conIn ∧ t.draws = s.draws ∧
    keepsRegs s t ∧ t.cond = s.cond ∧ t.pc = s.pc ∧ keepsMemory s t ∧ keepsControl s t

/-- R163, R48: PUTS writes the low bytes of the words from R0 up to the first zero word, wrapping, and flushes. That
no word polls is the spec's choice: log entry 8. -/
def Obligations.PutsWritesUpToZeroWord : Prop :=
  ∀ (s : State) (n : Nat), s.inFlight = none → n < 65536 →
    (∀ k, k < n → s.rawRead (s.reg .r0 + BitVec.ofNat 16 k) ≠ 0) → s.rawRead (s.reg .r0 + BitVec.ofNat 16 n) = 0 →
    ∃ t, exec (.trap 0x22) s = .next t ∧
      t.conOut = s.conOut ++
        ((List.range n).map fun k => .out ((s.rawRead (s.reg .r0 + BitVec.ofNat 16 k)).extractLsb' 0 8)) ++ [.flush] ∧
      t.conIn = s.conIn ∧ t.draws = s.draws ∧ keepsRegs s t ∧ t.cond = s.cond ∧ t.pc = s.pc ∧ keepsMemory s t ∧
      keepsControl s t

/-- R165, R48: PUTSP writes each word's low byte and then its high byte if nonzero, up to the first word with a zero
low byte, wrapping, and flushes. That no word polls is the spec's choice: log entry 8. -/
def Obligations.PutspWritesPackedBytes : Prop :=
  ∀ (s : State) (n : Nat), s.inFlight = none → n < 65536 →
    (∀ k, k < n → (s.rawRead (s.reg .r0 + BitVec.ofNat 16 k)).extractLsb' 0 8 ≠ 0) →
    (s.rawRead (s.reg .r0 + BitVec.ofNat 16 n)).extractLsb' 0 8 = 0 →
    ∃ t, exec (.trap 0x24) s = .next t ∧
      t.conOut = s.conOut ++
        ((List.range n).flatMap fun k =>
          let w := s.rawRead (s.reg .r0 + BitVec.ofNat 16 k)
          .out (w.extractLsb' 0 8) :: if w.extractLsb' 8 8 = 0 then [] else [.out (w.extractLsb' 8 8)]) ++ [.flush] ∧
      t.conIn = s.conIn ∧ t.draws = s.draws ∧ keepsRegs s t ∧ t.cond = s.cond ∧ t.pc = s.pc ∧ keepsMemory s t ∧
      keepsControl s t

/-- R164: IN writes the prompt, reads a byte, echoes it, writes it to R0 and flushes, in that order. The prompt is
open, the list of answers the model's: log entries 17, 20. -/
def Obligations.InPromptsEchoesAndReads : Prop :=
  ∀ (s : State) (k : Nat) (b : Byte) (rest : List ConAnswer), s.inFlight = none →
    s.conIn = List.replicate k .notReady ++ .byte b :: rest →
    ∃ t, exec (.trap 0x23) s = .next t ∧ t.reg .r0 = b.setWidth 16 ∧ t.conIn = rest ∧
      t.conOut = s.conOut ++ Config.inPrompt.map .out ++ [.out b, .flush] ∧ t.draws = s.draws ∧
      keepsRegsBut .r0 s t ∧ t.cond = s.cond ∧ t.pc = s.pc ∧ keepsMemory s t ∧ keepsControl s t

/-- R164, R169, R186: IN at end of stream writes the prompt, echoes any one byte or none, writes the sentinel, flushes
and marks the run with code 4. Sentinel and echo are free values, the prompt is open: log entries 16, 17. -/
def Obligations.InAtEndOfStreamMarksTheRun : Prop :=
  ∀ (s : State) (k : Nat) (rest : List ConAnswer), s.inFlight = none →
    s.conIn = List.replicate k .notReady ++ .endOfStream :: rest →
    ∃ (t : State) (echo : Option Byte), exec (.trap 0x23) s = .next t ∧ t.reg .r0 = Config.eofSentinel s.draws ∧
      t.conOut = s.conOut ++ Config.inPrompt.map .out ++ echo.toList.map .out ++ [.flush] ∧
      t.marks = s.marks ++ [⟨.consoleEndOfStream, s.pc0, s.instr⟩] ∧ t.engine = s.engine ∧ t.inFlight = none ∧
      t.conIn = .endOfStream :: rest ∧ keepsRegsBut .r0 s t ∧ t.cond = s.cond ∧ t.pc = s.pc ∧ t.pc0 = s.pc0 ∧
      t.instr = s.instr ∧ keepsMemory s t

/-- R166: HALT writes HALT_MSG, flushes and halts with HaltTrap, PC at PCinc. The message is open: log entry 17. -/
def Obligations.HaltWritesMessageAndStops : Prop :=
  ∀ s : State, ∃ t, exec (.trap 0x25) s = .next t ∧ t.engine = .halted .haltTrap ∧
    t.conOut = s.conOut ++ Config.haltMsg.map .out ++ [.flush] ∧ t.conIn = s.conIn ∧ t.draws = s.draws ∧
    keepsRegs s t ∧ t.cond = s.cond ∧ t.pc = s.pc ∧ keepsMemory s t ∧ t.inFlight = s.inFlight ∧ t.pc0 = s.pc0 ∧
    t.instr = s.instr ∧ t.marks = s.marks

/-- R167, R185: a vector outside 0x20..0x25 is a no-op that marks the run with code 3. The no-op with its mark is the
spec's choice: log entry 13. -/
def Obligations.UndefinedVectorIsAMarkedNoOp : Prop :=
  ∀ (w : Word) (v : Byte) (s : State), w &&& 0xF000 = 0xF000 → v = w.extractLsb' 0 8 →
    (v.toNat < 0x20 ∨ 0x25 < v.toNat) →
    decode w = .trap v ∧ exec (.trap v) s = .next { s with marks := s.marks ++ [⟨.undefinedTrapVector, s.pc0, s.instr⟩] }

/-- R160, R168, R190: whatever its vector, TRAP decodes from its low byte, completes, leaves PC at PCinc, and writes
no register but R0, no memory word, no COND. R7 and COND rest on the spec's choices: log entries 9, 10. -/
def Obligations.TrapSavesNothing : Prop :=
  ∀ (w : Word) (s : State), w &&& 0xF000 = 0xF000 →
    decode w = .trap (w.extractLsb' 0 8) ∧ ∃ t, exec (.trap (w.extractLsb' 0 8)) s = .next t ∧ t.pc = s.pc ∧
      keepsRegsBut .r0 s t ∧ t.cond = s.cond ∧ keepsMemory s t ∧ t.pc0 = s.pc0 ∧ t.instr = s.instr

/-! ### Waits (R210) -/

/-- R210 (a): GETC and IN with no byte and no end of stream never end their step and never change what they wait with.
The service in flight is the model's: log entry 21. -/
def Obligations.ReadWithoutAnswerWaitsForEver : Prop :=
  ∀ (s : State) (v : Byte) (k : Nat), s.engine = .running → s.inFlight = none → (v = 0x20 ∨ v = 0x23) →
    decode s.fetch.instr = .trap v → s.conIn = List.replicate k .notReady →
    ∃ t : State, t.inFlight.isSome = true ∧ t.engine = .running ∧ t.pc = s.pc + 1 ∧ keepsRegs s t ∧ keepsMemory s t ∧
      t.conOut = s.conOut ++ (if v = 0x23 then Config.inPrompt.map .out else []) ∧
      ∀ n, Host.Core.run Sys2Proof.core (n + 1) s = .next t

/-- R35, R197: a waiting GETC or IN is woken by the host's next byte, or by end of stream (R169, R186), and ends its step
as if that had come at once; a step fetched from 0xFFFF then halts (R184). The service in flight is the model's, the
sentinel and IN's echo at end of stream are free values: log entries 21, 16. -/
def Obligations.WaitingReadIsWokenByAByte : Prop :=
  ∀ (s : State) (f : InFlight), s.engine = .running → s.inFlight = some f → (f = .getc ∨ f = .inRead) → s.conIn = [] →
    (∀ b : Byte, ∃ t, step (s.hostSupplies [.byte b]) = .next t ∧ t.inFlight = none ∧
      t.engine = (if s.pc0 = 0xFFFF then .halted .pcOverflow else .running) ∧
      t.reg .r0 = b.setWidth 16 ∧ keepsRegsBut .r0 s t ∧ t.pc = s.pc ∧ t.cond = s.cond ∧ keepsMemory s t ∧
      t.conIn = [] ∧ t.conOut = s.conOut ++ (if f = .inRead then [.out b, .flush] else []) ∧ t.marks = s.marks) ∧
    (∃ (t : State) (echo : Option Byte), step (s.hostSupplies [.endOfStream]) = .next t ∧ t.inFlight = none ∧
      t.engine = (if s.pc0 = 0xFFFF then .halted .pcOverflow else .running) ∧
      t.reg .r0 = Config.eofSentinel s.draws ∧ keepsRegsBut .r0 s t ∧ t.pc = s.pc ∧ t.cond = s.cond ∧ keepsMemory s t ∧
      t.conIn = [.endOfStream] ∧
      t.conOut = s.conOut ++ (if f = .inRead then echo.toList.map .out ++ [.flush] else []) ∧
      t.marks = s.marks ++ [⟨.consoleEndOfStream, s.pc0, s.instr⟩])

/-- R210 (b), R163: PUTS over a memory without a zero word never ends its step: it writes the low bytes of the words from
x[0] on, address after address modulo 2^16, so the same 65536 bytes over and over, and never flushes. The service in
flight is the model's: log entry 21. -/
def Obligations.PutsWithoutTerminatorNeverEnds : Prop :=
  ∀ s : State, s.engine = .running → s.inFlight = none → decode s.fetch.instr = .trap 0x22 →
    (∀ a, s.rawRead a ≠ 0) →
    ∀ n, ∃ t : State, Host.Core.run Sys2Proof.core (n + 1) s = .next t ∧ t.engine = .running ∧ t.stepDone = false ∧
      keepsRegs s t ∧ keepsMemory s t ∧
      t.conOut = s.conOut ++ ((List.range (Params.memoryWords * (n + 1))).map fun k =>
        .out ((s.rawRead (s.reg .r0 + BitVec.ofNat 16 k)).extractLsb' 0 8)) ∧
      t.output.length = s.output.length + 65536 * (n + 1) ∧ t.conOut.count .flush = s.conOut.count .flush

/-- R210 (c), R165: PUTSP over a memory without a zero low byte never ends its step: it writes the bytes of the words from
x[0] on, address after address modulo 2^16, and never flushes. The service in flight is the model's: log entry 21. -/
def Obligations.PutspWithoutTerminatorNeverEnds : Prop :=
  ∀ s : State, s.engine = .running → s.inFlight = none → decode s.fetch.instr = .trap 0x24 →
    (∀ a, (s.rawRead a).extractLsb' 0 8 ≠ 0) →
    ∀ n, ∃ t : State, Host.Core.run Sys2Proof.core (n + 1) s = .next t ∧ t.engine = .running ∧ t.stepDone = false ∧
      keepsRegs s t ∧ keepsMemory s t ∧
      t.conOut = s.conOut ++ ((List.range (Params.memoryWords * (n + 1))).flatMap fun k =>
        let w := s.rawRead (s.reg .r0 + BitVec.ofNat 16 k)
        .out (w.extractLsb' 0 8) :: if w.extractLsb' 8 8 = 0 then [] else [.out (w.extractLsb' 8 8)]) ∧
      s.output.length + 65536 * (n + 1) ≤ t.output.length ∧ t.conOut.count .flush = s.conOut.count .flush

/-! ### The whole machine -/

/-- Every instruction form has an effect in every state: no path ends in a fault or a refusal. The abort of a reserved
opcode counts as its effect: log entry 14. -/
def Obligations.EveryInstructionCompletes : Prop := ∀ (i : Instr) (s : State), ∃ t, exec i s = .next t

/-- R180, R184, R188: the engine leaves Running only by HALT away from 0xFFFF, by the end of a step fetched from
0xFFFF, or by a reserved word; and exactly then. The reason at 0xFFFF is the spec's choice: log entry 15. -/
def Obligations.EngineStopsExactlyOnItsEvents : Prop :=
  ∀ s t : State, step s = .next t →
    (t.engine = .halted .haltTrap ↔ s.inFlight = none ∧ decode s.fetch.instr = .trap 0x25 ∧ s.pc ≠ 0xFFFF) ∧
    ((∃ c p i, t.engine = .aborted c p i) ↔
      s.inFlight = none ∧ (decode s.fetch.instr = .reserved8 ∨ decode s.fetch.instr = .reserved13)) ∧
    (t.engine = .halted .pcOverflow ↔ t.inFlight = none ∧ t.pc0 = 0xFFFF ∧ t.faultCause = none)

/-- R23, R22: an instruction changes no general register but those R23's table lets it write. That TRAP links nothing
is the spec's choice: log entry 9. -/
def Obligations.RegistersWrittenOnlyByTheirWriters : Prop :=
  ∀ (i : Instr) (s t : State), exec i s = .next t → ∀ r, r ∉ regsWritten i → t.reg r = s.reg r

/-- R28: the writers of COND are exactly the seven operations, each leaves exactly one flag set, and once one flag is
set every later state has exactly one flag set. That no TRAP writes COND is the spec's choice: log entry 10. -/
def Obligations.CondWrittenOnlyByItsWriters : Prop :=
  (∀ (i : Instr) (s t : State), exec i s = .next t →
    (condWritten i = true → condOneFlag t.cond) ∧ (condWritten i = false → t.cond = s.cond)) ∧
  (∀ s t : State, condOneFlag s.cond → step s = .next t → condOneFlag t.cond)

/-- R26: how every instruction that does not abort leaves PC. JSRR's default is the spec's choice: log entry 11. -/
def Obligations.PcAfterEachInstruction : Prop :=
  ∀ (i : Instr) (s t : State) (v : Word), exec i s = .next t → s.pcAfter i = some v → t.pc = v

/-- R41, R47, R51: a word of memory changes only under a store to it, or at 0xFE00 and 0xFE02 when the instruction reads
0xFE00. -/
def Obligations.MemoryChangesOnlyByStoreOrPoll : Prop :=
  ∀ (i : Instr) (s t : State) (a : Word), exec i s = .next t → s.memWrites i ≠ some a →
    (a = 0xFE00 ∨ a = 0xFE02 → 0xFE00 ∉ s.memReads i) → t.rawRead a = s.rawRead a

/-- R31, R189: an instruction that neither reads 0xFE00 nor is GETC or IN does the same whatever the console input
holds, and leaves that input alone. The list of the host's answers is the model's: log entry 20. -/
def Obligations.ConsoleInputIsInvisibleWithoutAPoll : Prop :=
  ∀ (i : Instr) (s t : State) (answers : List ConAnswer), 0xFE00 ∉ s.memReads i → i ≠ .trap 0x20 → i ≠ .trap 0x23 →
    exec i s = .next t → t.conIn = s.conIn ∧ exec i { s with conIn := answers } = .next { t with conIn := answers }
end

