-- ==== Sys2Proof/Laws/Decode.lean ====
section
/-! SUPPORT. The small lemmas of the decoder and the encoder: the register and opcode tables are inverse to each other, and
what each decoder case reads. -/

namespace Sys2Proof

@[simp] theorem Reg.ofBits_toBits (r : Reg) : Reg.ofBits r.toBits = r := by cases r <;> rfl

@[simp] theorem Reg.toBits_ofBits (b : BitVec 3) : (Reg.ofBits b).toBits = b := by revert b; decide

@[simp] theorem Opcode.ofBits_toBits (o : Opcode) : Opcode.ofBits o.toBits = o := by cases o <;> rfl

@[simp] theorem Opcode.toBits_ofBits (b : BitVec 4) : (Opcode.ofBits b).toBits = b := by revert b; decide

/-- The register a field equal to a register's number names. -/
theorem Reg.ofBits_of_eq {b : BitVec 3} {r : Reg} (h : b = r.toBits) : Reg.ofBits b = r := by simp [h]

/-- The opcode of a word whose top nibble is an opcode's number. -/
theorem Opcode.ofBits_of_eq {b : BitVec 4} {o : Opcode} (h : b = o.toBits) : Opcode.ofBits b = o := by simp [h]

/-- What a masked word says of its bits. -/
theorem getLsbD_of_mask {w m v : Word} (h : w &&& m = v) (i : Nat) (hm : m.getLsbD i = true) :
    w.getLsbD i = v.getLsbD i := by
  rw [← h, BitVec.getLsbD_and, hm, Bool.and_true]

/-- A row whose mask covers instr[15:12] fixes the opcode. -/
theorem opcode_of_mask {w m v : Word} (h : w &&& m = v) (hm : ∀ i, 12 ≤ i → i < 16 → m.getLsbD i = true) :
    bits w 12 4 = bits v 12 4 := by
  apply BitVec.eq_of_getLsbD_eq
  intro i hi
  simp only [bits, BitVec.getLsbD_extractLsb', hi, decide_true, Bool.true_and]
  exact getLsbD_of_mask h (12 + i) (hm _ (by omega) (by omega))

/-- The decoder's case for an opcode, once instr[15:12] is known. -/
theorem decode_of_opcode {w : Word} {o : Opcode} (h : bits w 12 4 = o.toBits) :
    decode w = match o with
      | .br => .br (w.getLsbD 11) (w.getLsbD 10) (w.getLsbD 9) (fieldOffset9 w)
      | .add => if w.getLsbD 5 then .addImm (fieldDR w) (fieldSR1 w) (fieldImm5 w) else .addReg (fieldDR w) (fieldSR1 w) (fieldSR2 w)
      | .ld => .ld (fieldDR w) (fieldOffset9 w)
      | .st => .st (fieldDR w) (fieldOffset9 w)
      | .jsr => if w.getLsbD 11 then .jsr (fieldOffset11 w) else .jsrr (fieldSR1 w)
      | .and => if w.getLsbD 5 then .andImm (fieldDR w) (fieldSR1 w) (fieldImm5 w) else .andReg (fieldDR w) (fieldSR1 w) (fieldSR2 w)
      | .ldr => .ldr (fieldDR w) (fieldSR1 w) (fieldOffset6 w)
      | .str => .str (fieldDR w) (fieldSR1 w) (fieldOffset6 w)
      | .reserved8 => .reserved8
      | .not => .not (fieldDR w) (fieldSR1 w)
      | .ldi => .ldi (fieldDR w) (fieldOffset9 w)
      | .sti => .sti (fieldDR w) (fieldOffset9 w)
      | .jmp => .jmp (fieldSR1 w)
      | .reserved13 => .reserved13
      | .lea => .lea (fieldDR w) (fieldOffset9 w)
      | .trap => .trap (bits w 0 8) := by
  rw [decode, Opcode.ofBits_of_eq h]
  cases o <;> rfl

/-- What a placed field holds. -/
theorem getLsbD_place {n : Nat} (v : BitVec n) (lo i : Nat) :
    (place v lo).getLsbD i = (decide (i < 16) && (!decide (i < lo) && (decide (i - lo < 16) && v.getLsbD (i - lo)))) := by
  simp [place, BitVec.getLsbD_shiftLeft, BitVec.getLsbD_setWidth, Bool.and_assoc]

/-- What a placed field holds, by index. -/
theorem getElem_place {n : Nat} (v : BitVec n) (lo i : Nat) (h : i < 16) :
    (place v lo)[i] = (!decide (i < lo) && v.getLsbD (i - lo)) := by
  have : i - lo < 16 := by omega
  simp [← BitVec.getLsbD_eq_getElem, getLsbD_place, h, this]

/-- An encoded instruction's opcode is its row's. -/
theorem encode_opcode (i : Instr) : bits (encode i) 12 4 = bits i.row.1 12 4 := by
  apply BitVec.eq_of_getLsbD_eq
  intro k hk
  interval_cases k <;> cases i <;> simp [bits, encode, Instr.row, getElem_place, Opcode.toBits]

/-- A field of a word, bit by bit. -/
theorem bits_of_getLsbD {w : Word} {lo len : Nat} {v : BitVec len}
    (h : ∀ k, k < len → w.getLsbD (lo + k) = v.getLsbD k) : bits w lo len = v := by
  apply BitVec.eq_of_getLsbD_eq
  intro k hk
  simpa [bits, hk] using h k hk

/-- A widened operand is what its own low bits widen to, where they hold its value: R64 for a field of `len` bits. -/
theorem sext_operandField {v : Word} {len : Nat} (hpos : 0 < len) (hlen : len ≤ 16)
    (lo : -(2 ^ (len - 1) : Int) ≤ v.toInt) (hi : v.toInt < 2 ^ (len - 1)) : sext (operandField v len) = v := by
  apply BitVec.eq_of_toInt_eq
  have hs : (sext (operandField v len)).toInt = (operandField v len).toInt := BitVec.toInt_signExtend_of_le hlen
  have hv : (operandField v len).toInt = v.toInt.bmod (2 ^ len) := by
    rw [operandField, BitVec.toInt_setWidth, BitVec.toInt_eq_toNat_bmod, Int.bmod_bmod_of_dvd (Nat.pow_dvd_pow 2 hlen)]
  have two : (2 : Int) ^ len = 2 * 2 ^ (len - 1) := by
    rw [← Int.pow_succ', Nat.sub_add_cancel hpos]
  rw [hs, hv]
  apply Int.bmod_eq_of_le <;> push_cast <;> omega

end Sys2Proof
end

