-- ==== Sys2Proof/Laws/Memory.lean ====
section
/-! SUPPORT. The storage array: a write is read back and leaves every other address alone, every operation keeps the
canonical form, and canonical memories that read alike are equal. -/

namespace Sys2Proof.Machine

/-! ### Read after write -/

@[simp] theorem Memory.read_nil (a : Nat) : Memory.read [] a = 0 := rfl

theorem Memory.read_erase_same (m : Memory) (a : Nat) : Memory.read (Memory.erase m a) a = 0 := by
  induction m with
  | nil => rfl
  | cons c m ih =>
    obtain ⟨k, v⟩ := c
    by_cases h : a = k <;> simp [Memory.erase, Memory.read, h]
    · simpa [h] using ih
    · exact ih

theorem Memory.read_erase_other (m : Memory) {a b : Nat} (hb : b ≠ a) :
    Memory.read (Memory.erase m a) b = Memory.read m b := by
  induction m with
  | nil => rfl
  | cons c m ih =>
    obtain ⟨k, v⟩ := c
    by_cases h : a = k
    · subst h
      simp [Memory.erase, Memory.read, hb, ih]
    · simp [Memory.erase, Memory.read, h, ih]

theorem Memory.read_insert_same (m : Memory) (a : Nat) (v : Word) : Memory.read (Memory.insert m a v) a = v := by
  induction m with
  | nil => simp [Memory.insert, Memory.read]
  | cons c m ih =>
    obtain ⟨k, u⟩ := c
    simp only [Memory.insert]
    split
    · simp [Memory.read]
    · split
      · simp [Memory.read]
      · simp [Memory.read, *]

theorem Memory.read_insert_other (m : Memory) {a b : Nat} (v : Word) (hb : b ≠ a) :
    Memory.read (Memory.insert m a v) b = Memory.read m b := by
  induction m with
  | nil => simp [Memory.insert, Memory.read, hb]
  | cons c m ih =>
    obtain ⟨k, u⟩ := c
    simp only [Memory.insert]
    split
    · simp [Memory.read, hb]
    · split
      · next h => subst h; simp [Memory.read, hb]
      · simp [Memory.read, ih]

/-- A read after a write to the same address gives the value written. -/
@[simp] theorem Memory.read_write_same (m : Memory) (a : Nat) (v : Word) : Memory.read (Memory.write m a v) a = v := by
  unfold Memory.write
  split
  · next h => rw [Memory.read_erase_same, h]
  · exact Memory.read_insert_same m a v

/-- A write leaves every other address alone. -/
theorem Memory.read_write_other (m : Memory) {a b : Nat} (v : Word) (hb : b ≠ a) :
    Memory.read (Memory.write m a v) b = Memory.read m b := by
  unfold Memory.write
  split
  · exact Memory.read_erase_other m hb
  · exact Memory.read_insert_other m v hb

/-! ### The canonical form -/

theorem Memory.wfFrom_cons {lo k : Nat} {v : Word} {m : Memory} :
    Memory.wfFrom lo ((k, v) :: m) = true ↔ lo ≤ k ∧ k < 65536 ∧ v ≠ 0 ∧ Memory.wfFrom (k + 1) m = true := by
  simp [Memory.wfFrom, and_assoc]

theorem Memory.wfFrom_mono {lo hi : Nat} {m : Memory} (h : lo ≤ hi) (hm : Memory.wfFrom hi m = true) :
    Memory.wfFrom lo m = true := by
  cases m with
  | nil => rfl
  | cons c m =>
    obtain ⟨k, v⟩ := c
    rw [Memory.wfFrom_cons] at hm ⊢
    exact ⟨by omega, hm.2⟩

/-- In a canonical memory from `lo` on, an address below `lo` is unlisted. -/
theorem Memory.read_below {lo a : Nat} {m : Memory} (hm : Memory.wfFrom lo m = true) (ha : a < lo) :
    Memory.read m a = 0 := by
  induction m generalizing lo with
  | nil => rfl
  | cons c m ih =>
    obtain ⟨k, v⟩ := c
    rw [Memory.wfFrom_cons] at hm
    simp [Memory.read, show a ≠ k by omega, ih hm.2.2.2 (by omega)]

theorem Memory.wfFrom_erase {lo : Nat} {m : Memory} (a : Nat) (hm : Memory.wfFrom lo m = true) :
    Memory.wfFrom lo (Memory.erase m a) = true := by
  induction m generalizing lo with
  | nil => rfl
  | cons c m ih =>
    obtain ⟨k, v⟩ := c
    rw [Memory.wfFrom_cons] at hm
    simp only [Memory.erase]
    split
    · exact Memory.wfFrom_mono (by omega) (ih hm.2.2.2)
    · rw [Memory.wfFrom_cons]
      exact ⟨hm.1, hm.2.1, hm.2.2.1, ih hm.2.2.2⟩

theorem Memory.wfFrom_insert {lo a : Nat} {m : Memory} {v : Word} (hm : Memory.wfFrom lo m = true) (hlo : lo ≤ a)
    (ha : a < 65536) (hv : v ≠ 0) : Memory.wfFrom lo (Memory.insert m a v) = true := by
  induction m generalizing lo with
  | nil => exact Memory.wfFrom_cons.mpr ⟨hlo, ha, hv, rfl⟩
  | cons c m ih =>
    obtain ⟨k, u⟩ := c
    rw [Memory.wfFrom_cons] at hm
    simp only [Memory.insert]
    split
    · rw [Memory.wfFrom_cons, Memory.wfFrom_cons]
      exact ⟨hlo, ha, hv, by omega, hm.2⟩
    · split
      · next h => subst h; rw [Memory.wfFrom_cons]; exact ⟨hlo, ha, hv, hm.2.2.2⟩
      · rw [Memory.wfFrom_cons]
        exact ⟨hm.1, hm.2.1, hm.2.2.1, ih hm.2.2.2 (by omega)⟩

/-- A write to an address of the space keeps the canonical form. -/
theorem Memory.wf_write {m : Memory} {a : Nat} (v : Word) (hm : Memory.wf m = true) (ha : a < 65536) :
    Memory.wf (Memory.write m a v) = true := by
  unfold Memory.wf Memory.write at *
  split
  · exact Memory.wfFrom_erase a hm
  · next hv => exact Memory.wfFrom_insert hm (Nat.zero_le a) ha hv

/-- The direct array write keeps the canonical form. -/
theorem State.wf_rawWrite (s : State) (a v : Word) (h : Memory.wf s.mem = true) :
    Memory.wf (s.rawWrite a v).mem = true := Memory.wf_write v h a.isLt

/-- The store keeps the canonical form. -/
theorem State.wf_memWrite (s : State) (a v : Word) (h : Memory.wf s.mem = true) :
    Memory.wf (s.memWrite a v).mem = true := Memory.wf_write v h a.isLt

/-- The empty memory of reset is canonical. -/
theorem State.wf_reset : Memory.wf State.reset.mem = true := rfl

/-! ### The array through the machine -/

theorem Word.toNat_ne {a b : Word} (h : a ≠ b) : a.toNat ≠ b.toNat := fun e => h (BitVec.eq_of_toNat_eq e)

@[simp] theorem State.rawRead_rawWrite_same (s : State) (a v : Word) : (s.rawWrite a v).rawRead a = v :=
  Memory.read_write_same s.mem a.toNat v

theorem State.rawRead_rawWrite_other (s : State) {a b : Word} (v : Word) (h : b ≠ a) :
    (s.rawWrite a v).rawRead b = s.rawRead b := Memory.read_write_other s.mem v (Word.toNat_ne h)

@[simp] theorem State.rawRead_memWrite_same (s : State) (a v : Word) : (s.memWrite a v).rawRead a = v :=
  s.rawRead_rawWrite_same a v

theorem State.rawRead_memWrite_other (s : State) {a b : Word} (v : Word) (h : b ≠ a) :
    (s.memWrite a v).rawRead b = s.rawRead b := s.rawRead_rawWrite_other v h

end Sys2Proof.Machine
end

