-- ==== Sys2Proof/Laws/State.lean ====
section
/-! SUPPORT. One lemma per field of State per update of Machine/Ops.lean, Flags.lean, Control.lean and Trap.lean, each true by
unfolding the update once, so that no proof unfolds a record update. -/

namespace Sys2Proof.Machine

/-! ### setReg -/

@[simp] theorem State.setReg_regs (s : State) (r : Reg) (v : Word) : (s.setReg r v).regs = s.regs.set r v := rfl
@[simp] theorem State.setReg_pc (s : State) (r : Reg) (v : Word) : (s.setReg r v).pc = s.pc := rfl
@[simp] theorem State.setReg_cond (s : State) (r : Reg) (v : Word) : (s.setReg r v).cond = s.cond := rfl
@[simp] theorem State.setReg_mem (s : State) (r : Reg) (v : Word) : (s.setReg r v).mem = s.mem := rfl
@[simp] theorem State.setReg_engine (s : State) (r : Reg) (v : Word) : (s.setReg r v).engine = s.engine := rfl
@[simp] theorem State.setReg_pc0 (s : State) (r : Reg) (v : Word) : (s.setReg r v).pc0 = s.pc0 := rfl
@[simp] theorem State.setReg_instr (s : State) (r : Reg) (v : Word) : (s.setReg r v).instr = s.instr := rfl
@[simp] theorem State.setReg_inFlight (s : State) (r : Reg) (v : Word) : (s.setReg r v).inFlight = s.inFlight := rfl
@[simp] theorem State.setReg_conIn (s : State) (r : Reg) (v : Word) : (s.setReg r v).conIn = s.conIn := rfl
@[simp] theorem State.setReg_conOut (s : State) (r : Reg) (v : Word) : (s.setReg r v).conOut = s.conOut := rfl
@[simp] theorem State.setReg_marks (s : State) (r : Reg) (v : Word) : (s.setReg r v).marks = s.marks := rfl
@[simp] theorem State.setReg_draws (s : State) (r : Reg) (v : Word) : (s.setReg r v).draws = s.draws := rfl

/-! ### setPc -/

@[simp] theorem State.setPc_regs (s : State) (v : Word) : (s.setPc v).regs = s.regs := rfl
@[simp] theorem State.setPc_pc (s : State) (v : Word) : (s.setPc v).pc = v := rfl
@[simp] theorem State.setPc_cond (s : State) (v : Word) : (s.setPc v).cond = s.cond := rfl
@[simp] theorem State.setPc_mem (s : State) (v : Word) : (s.setPc v).mem = s.mem := rfl
@[simp] theorem State.setPc_engine (s : State) (v : Word) : (s.setPc v).engine = s.engine := rfl
@[simp] theorem State.setPc_pc0 (s : State) (v : Word) : (s.setPc v).pc0 = s.pc0 := rfl
@[simp] theorem State.setPc_instr (s : State) (v : Word) : (s.setPc v).instr = s.instr := rfl
@[simp] theorem State.setPc_inFlight (s : State) (v : Word) : (s.setPc v).inFlight = s.inFlight := rfl
@[simp] theorem State.setPc_conIn (s : State) (v : Word) : (s.setPc v).conIn = s.conIn := rfl
@[simp] theorem State.setPc_conOut (s : State) (v : Word) : (s.setPc v).conOut = s.conOut := rfl
@[simp] theorem State.setPc_marks (s : State) (v : Word) : (s.setPc v).marks = s.marks := rfl
@[simp] theorem State.setPc_draws (s : State) (v : Word) : (s.setPc v).draws = s.draws := rfl

/-! ### rawWrite -/

@[simp] theorem State.rawWrite_regs (s : State) (a v : Word) : (s.rawWrite a v).regs = s.regs := rfl
@[simp] theorem State.rawWrite_pc (s : State) (a v : Word) : (s.rawWrite a v).pc = s.pc := rfl
@[simp] theorem State.rawWrite_cond (s : State) (a v : Word) : (s.rawWrite a v).cond = s.cond := rfl
@[simp] theorem State.rawWrite_mem (s : State) (a v : Word) : (s.rawWrite a v).mem = Memory.write s.mem a.toNat v := rfl
@[simp] theorem State.rawWrite_engine (s : State) (a v : Word) : (s.rawWrite a v).engine = s.engine := rfl
@[simp] theorem State.rawWrite_pc0 (s : State) (a v : Word) : (s.rawWrite a v).pc0 = s.pc0 := rfl
@[simp] theorem State.rawWrite_instr (s : State) (a v : Word) : (s.rawWrite a v).instr = s.instr := rfl
@[simp] theorem State.rawWrite_inFlight (s : State) (a v : Word) : (s.rawWrite a v).inFlight = s.inFlight := rfl
@[simp] theorem State.rawWrite_conIn (s : State) (a v : Word) : (s.rawWrite a v).conIn = s.conIn := rfl
@[simp] theorem State.rawWrite_conOut (s : State) (a v : Word) : (s.rawWrite a v).conOut = s.conOut := rfl
@[simp] theorem State.rawWrite_marks (s : State) (a v : Word) : (s.rawWrite a v).marks = s.marks := rfl
@[simp] theorem State.rawWrite_draws (s : State) (a v : Word) : (s.rawWrite a v).draws = s.draws := rfl

/-! ### memWrite -/

@[simp] theorem State.memWrite_regs (s : State) (a v : Word) : (s.memWrite a v).regs = s.regs := rfl
@[simp] theorem State.memWrite_pc (s : State) (a v : Word) : (s.memWrite a v).pc = s.pc := rfl
@[simp] theorem State.memWrite_cond (s : State) (a v : Word) : (s.memWrite a v).cond = s.cond := rfl
@[simp] theorem State.memWrite_mem (s : State) (a v : Word) : (s.memWrite a v).mem = Memory.write s.mem a.toNat v := rfl
@[simp] theorem State.memWrite_engine (s : State) (a v : Word) : (s.memWrite a v).engine = s.engine := rfl
@[simp] theorem State.memWrite_pc0 (s : State) (a v : Word) : (s.memWrite a v).pc0 = s.pc0 := rfl
@[simp] theorem State.memWrite_instr (s : State) (a v : Word) : (s.memWrite a v).instr = s.instr := rfl
@[simp] theorem State.memWrite_inFlight (s : State) (a v : Word) : (s.memWrite a v).inFlight = s.inFlight := rfl
@[simp] theorem State.memWrite_conIn (s : State) (a v : Word) : (s.memWrite a v).conIn = s.conIn := rfl
@[simp] theorem State.memWrite_conOut (s : State) (a v : Word) : (s.memWrite a v).conOut = s.conOut := rfl
@[simp] theorem State.memWrite_marks (s : State) (a v : Word) : (s.memWrite a v).marks = s.marks := rfl
@[simp] theorem State.memWrite_draws (s : State) (a v : Word) : (s.memWrite a v).draws = s.draws := rfl

/-! ### conWrite -/

@[simp] theorem State.conWrite_regs (s : State) (b : Byte) : (s.conWrite b).regs = s.regs := rfl
@[simp] theorem State.conWrite_pc (s : State) (b : Byte) : (s.conWrite b).pc = s.pc := rfl
@[simp] theorem State.conWrite_cond (s : State) (b : Byte) : (s.conWrite b).cond = s.cond := rfl
@[simp] theorem State.conWrite_mem (s : State) (b : Byte) : (s.conWrite b).mem = s.mem := rfl
@[simp] theorem State.conWrite_engine (s : State) (b : Byte) : (s.conWrite b).engine = s.engine := rfl
@[simp] theorem State.conWrite_pc0 (s : State) (b : Byte) : (s.conWrite b).pc0 = s.pc0 := rfl
@[simp] theorem State.conWrite_instr (s : State) (b : Byte) : (s.conWrite b).instr = s.instr := rfl
@[simp] theorem State.conWrite_inFlight (s : State) (b : Byte) : (s.conWrite b).inFlight = s.inFlight := rfl
@[simp] theorem State.conWrite_conIn (s : State) (b : Byte) : (s.conWrite b).conIn = s.conIn := rfl
@[simp] theorem State.conWrite_conOut (s : State) (b : Byte) : (s.conWrite b).conOut = s.conOut ++ [.out b] := rfl
@[simp] theorem State.conWrite_marks (s : State) (b : Byte) : (s.conWrite b).marks = s.marks := rfl
@[simp] theorem State.conWrite_draws (s : State) (b : Byte) : (s.conWrite b).draws = s.draws := rfl

/-! ### conWriteAll -/

@[simp] theorem State.conWriteAll_regs (s : State) (bs : List Byte) : (s.conWriteAll bs).regs = s.regs := rfl
@[simp] theorem State.conWriteAll_pc (s : State) (bs : List Byte) : (s.conWriteAll bs).pc = s.pc := rfl
@[simp] theorem State.conWriteAll_cond (s : State) (bs : List Byte) : (s.conWriteAll bs).cond = s.cond := rfl
@[simp] theorem State.conWriteAll_mem (s : State) (bs : List Byte) : (s.conWriteAll bs).mem = s.mem := rfl
@[simp] theorem State.conWriteAll_engine (s : State) (bs : List Byte) : (s.conWriteAll bs).engine = s.engine := rfl
@[simp] theorem State.conWriteAll_pc0 (s : State) (bs : List Byte) : (s.conWriteAll bs).pc0 = s.pc0 := rfl
@[simp] theorem State.conWriteAll_instr (s : State) (bs : List Byte) : (s.conWriteAll bs).instr = s.instr := rfl
@[simp] theorem State.conWriteAll_inFlight (s : State) (bs : List Byte) : (s.conWriteAll bs).inFlight = s.inFlight := rfl
@[simp] theorem State.conWriteAll_conIn (s : State) (bs : List Byte) : (s.conWriteAll bs).conIn = s.conIn := rfl
@[simp] theorem State.conWriteAll_conOut (s : State) (bs : List Byte) : (s.conWriteAll bs).conOut = s.conOut ++ bs.map ConEvent.out := rfl
@[simp] theorem State.conWriteAll_marks (s : State) (bs : List Byte) : (s.conWriteAll bs).marks = s.marks := rfl
@[simp] theorem State.conWriteAll_draws (s : State) (bs : List Byte) : (s.conWriteAll bs).draws = s.draws := rfl

/-! ### conFlush -/

@[simp] theorem State.conFlush_regs (s : State) : (s.conFlush).regs = s.regs := rfl
@[simp] theorem State.conFlush_pc (s : State) : (s.conFlush).pc = s.pc := rfl
@[simp] theorem State.conFlush_cond (s : State) : (s.conFlush).cond = s.cond := rfl
@[simp] theorem State.conFlush_mem (s : State) : (s.conFlush).mem = s.mem := rfl
@[simp] theorem State.conFlush_engine (s : State) : (s.conFlush).engine = s.engine := rfl
@[simp] theorem State.conFlush_pc0 (s : State) : (s.conFlush).pc0 = s.pc0 := rfl
@[simp] theorem State.conFlush_instr (s : State) : (s.conFlush).instr = s.instr := rfl
@[simp] theorem State.conFlush_inFlight (s : State) : (s.conFlush).inFlight = s.inFlight := rfl
@[simp] theorem State.conFlush_conIn (s : State) : (s.conFlush).conIn = s.conIn := rfl
@[simp] theorem State.conFlush_conOut (s : State) : (s.conFlush).conOut = s.conOut ++ [.flush] := rfl
@[simp] theorem State.conFlush_marks (s : State) : (s.conFlush).marks = s.marks := rfl
@[simp] theorem State.conFlush_draws (s : State) : (s.conFlush).draws = s.draws := rfl

/-! ### drawn -/

@[simp] theorem State.drawn_regs (s : State) : (s.drawn).regs = s.regs := rfl
@[simp] theorem State.drawn_pc (s : State) : (s.drawn).pc = s.pc := rfl
@[simp] theorem State.drawn_cond (s : State) : (s.drawn).cond = s.cond := rfl
@[simp] theorem State.drawn_mem (s : State) : (s.drawn).mem = s.mem := rfl
@[simp] theorem State.drawn_engine (s : State) : (s.drawn).engine = s.engine := rfl
@[simp] theorem State.drawn_pc0 (s : State) : (s.drawn).pc0 = s.pc0 := rfl
@[simp] theorem State.drawn_instr (s : State) : (s.drawn).instr = s.instr := rfl
@[simp] theorem State.drawn_inFlight (s : State) : (s.drawn).inFlight = s.inFlight := rfl
@[simp] theorem State.drawn_conIn (s : State) : (s.drawn).conIn = s.conIn := rfl
@[simp] theorem State.drawn_conOut (s : State) : (s.drawn).conOut = s.conOut := rfl
@[simp] theorem State.drawn_marks (s : State) : (s.drawn).marks = s.marks := rfl
@[simp] theorem State.drawn_draws (s : State) : (s.drawn).draws = s.draws + 1 := rfl

/-! ### halt -/

@[simp] theorem State.halt_regs (s : State) (h : HaltReason) : (s.halt h).regs = s.regs := rfl
@[simp] theorem State.halt_pc (s : State) (h : HaltReason) : (s.halt h).pc = s.pc := rfl
@[simp] theorem State.halt_cond (s : State) (h : HaltReason) : (s.halt h).cond = s.cond := rfl
@[simp] theorem State.halt_mem (s : State) (h : HaltReason) : (s.halt h).mem = s.mem := rfl
@[simp] theorem State.halt_engine (s : State) (h : HaltReason) : (s.halt h).engine = .halted h := rfl
@[simp] theorem State.halt_pc0 (s : State) (h : HaltReason) : (s.halt h).pc0 = s.pc0 := rfl
@[simp] theorem State.halt_instr (s : State) (h : HaltReason) : (s.halt h).instr = s.instr := rfl
@[simp] theorem State.halt_inFlight (s : State) (h : HaltReason) : (s.halt h).inFlight = s.inFlight := rfl
@[simp] theorem State.halt_conIn (s : State) (h : HaltReason) : (s.halt h).conIn = s.conIn := rfl
@[simp] theorem State.halt_conOut (s : State) (h : HaltReason) : (s.halt h).conOut = s.conOut := rfl
@[simp] theorem State.halt_marks (s : State) (h : HaltReason) : (s.halt h).marks = s.marks := rfl
@[simp] theorem State.halt_draws (s : State) (h : HaltReason) : (s.halt h).draws = s.draws := rfl

/-! ### abort -/

@[simp] theorem State.abort_regs (s : State) : (s.abort).regs = s.regs := rfl
@[simp] theorem State.abort_pc (s : State) : (s.abort).pc = if Config.abortPcIncremented s.draws then s.pc else s.pc0 := rfl
@[simp] theorem State.abort_cond (s : State) : (s.abort).cond = s.cond := rfl
@[simp] theorem State.abort_mem (s : State) : (s.abort).mem = s.mem := rfl
@[simp] theorem State.abort_engine (s : State) : (s.abort).engine = .aborted .reservedOpcode s.pc0 s.instr := rfl
@[simp] theorem State.abort_pc0 (s : State) : (s.abort).pc0 = s.pc0 := rfl
@[simp] theorem State.abort_instr (s : State) : (s.abort).instr = s.instr := rfl
@[simp] theorem State.abort_inFlight (s : State) : (s.abort).inFlight = s.inFlight := rfl
@[simp] theorem State.abort_conIn (s : State) : (s.abort).conIn = s.conIn := rfl
@[simp] theorem State.abort_conOut (s : State) : (s.abort).conOut = s.conOut := rfl
@[simp] theorem State.abort_marks (s : State) : (s.abort).marks = s.marks := rfl
@[simp] theorem State.abort_draws (s : State) : (s.abort).draws = s.draws + 1 := rfl

/-! ### mark -/

@[simp] theorem State.mark_regs (s : State) (c : EventCode) : (s.mark c).regs = s.regs := rfl
@[simp] theorem State.mark_pc (s : State) (c : EventCode) : (s.mark c).pc = s.pc := rfl
@[simp] theorem State.mark_cond (s : State) (c : EventCode) : (s.mark c).cond = s.cond := rfl
@[simp] theorem State.mark_mem (s : State) (c : EventCode) : (s.mark c).mem = s.mem := rfl
@[simp] theorem State.mark_engine (s : State) (c : EventCode) : (s.mark c).engine = s.engine := rfl
@[simp] theorem State.mark_pc0 (s : State) (c : EventCode) : (s.mark c).pc0 = s.pc0 := rfl
@[simp] theorem State.mark_instr (s : State) (c : EventCode) : (s.mark c).instr = s.instr := rfl
@[simp] theorem State.mark_inFlight (s : State) (c : EventCode) : (s.mark c).inFlight = s.inFlight := rfl
@[simp] theorem State.mark_conIn (s : State) (c : EventCode) : (s.mark c).conIn = s.conIn := rfl
@[simp] theorem State.mark_conOut (s : State) (c : EventCode) : (s.mark c).conOut = s.conOut := rfl
@[simp] theorem State.mark_marks (s : State) (c : EventCode) : (s.mark c).marks = s.marks ++ [⟨c, s.pc0, s.instr⟩] := rfl
@[simp] theorem State.mark_draws (s : State) (c : EventCode) : (s.mark c).draws = s.draws := rfl

/-! ### setcc -/

@[simp] theorem State.setcc_regs (s : State) (v : Word) : (s.setcc v).regs = s.regs := rfl
@[simp] theorem State.setcc_pc (s : State) (v : Word) : (s.setcc v).pc = s.pc := rfl
@[simp] theorem State.setcc_cond (s : State) (v : Word) : (s.setcc v).cond = flagsOf v := rfl
@[simp] theorem State.setcc_mem (s : State) (v : Word) : (s.setcc v).mem = s.mem := rfl
@[simp] theorem State.setcc_engine (s : State) (v : Word) : (s.setcc v).engine = s.engine := rfl
@[simp] theorem State.setcc_pc0 (s : State) (v : Word) : (s.setcc v).pc0 = s.pc0 := rfl
@[simp] theorem State.setcc_instr (s : State) (v : Word) : (s.setcc v).instr = s.instr := rfl
@[simp] theorem State.setcc_inFlight (s : State) (v : Word) : (s.setcc v).inFlight = s.inFlight := rfl
@[simp] theorem State.setcc_conIn (s : State) (v : Word) : (s.setcc v).conIn = s.conIn := rfl
@[simp] theorem State.setcc_conOut (s : State) (v : Word) : (s.setcc v).conOut = s.conOut := rfl
@[simp] theorem State.setcc_marks (s : State) (v : Word) : (s.setcc v).marks = s.marks := rfl
@[simp] theorem State.setcc_draws (s : State) (v : Word) : (s.setcc v).draws = s.draws := rfl

/-! ### writeResult -/

@[simp] theorem State.writeResult_regs (s : State) (r : Reg) (v : Word) : (s.writeResult r v).regs = s.regs.set r v := rfl
@[simp] theorem State.writeResult_pc (s : State) (r : Reg) (v : Word) : (s.writeResult r v).pc = s.pc := rfl
@[simp] theorem State.writeResult_cond (s : State) (r : Reg) (v : Word) : (s.writeResult r v).cond = flagsOf v := rfl
@[simp] theorem State.writeResult_mem (s : State) (r : Reg) (v : Word) : (s.writeResult r v).mem = s.mem := rfl
@[simp] theorem State.writeResult_engine (s : State) (r : Reg) (v : Word) : (s.writeResult r v).engine = s.engine := rfl
@[simp] theorem State.writeResult_pc0 (s : State) (r : Reg) (v : Word) : (s.writeResult r v).pc0 = s.pc0 := rfl
@[simp] theorem State.writeResult_instr (s : State) (r : Reg) (v : Word) : (s.writeResult r v).instr = s.instr := rfl
@[simp] theorem State.writeResult_inFlight (s : State) (r : Reg) (v : Word) : (s.writeResult r v).inFlight = s.inFlight := rfl
@[simp] theorem State.writeResult_conIn (s : State) (r : Reg) (v : Word) : (s.writeResult r v).conIn = s.conIn := rfl
@[simp] theorem State.writeResult_conOut (s : State) (r : Reg) (v : Word) : (s.writeResult r v).conOut = s.conOut := rfl
@[simp] theorem State.writeResult_marks (s : State) (r : Reg) (v : Word) : (s.writeResult r v).marks = s.marks := rfl
@[simp] theorem State.writeResult_draws (s : State) (r : Reg) (v : Word) : (s.writeResult r v).draws = s.draws := rfl

/-! ### holdIn -/

@[simp] theorem State.holdIn_regs (s : State) (f : InFlight) : (s.holdIn f).regs = s.regs := rfl
@[simp] theorem State.holdIn_pc (s : State) (f : InFlight) : (s.holdIn f).pc = s.pc := rfl
@[simp] theorem State.holdIn_cond (s : State) (f : InFlight) : (s.holdIn f).cond = s.cond := rfl
@[simp] theorem State.holdIn_mem (s : State) (f : InFlight) : (s.holdIn f).mem = s.mem := rfl
@[simp] theorem State.holdIn_engine (s : State) (f : InFlight) : (s.holdIn f).engine = s.engine := rfl
@[simp] theorem State.holdIn_pc0 (s : State) (f : InFlight) : (s.holdIn f).pc0 = s.pc0 := rfl
@[simp] theorem State.holdIn_instr (s : State) (f : InFlight) : (s.holdIn f).instr = s.instr := rfl
@[simp] theorem State.holdIn_inFlight (s : State) (f : InFlight) : (s.holdIn f).inFlight = some f := rfl
@[simp] theorem State.holdIn_conIn (s : State) (f : InFlight) : (s.holdIn f).conIn = s.conIn := rfl
@[simp] theorem State.holdIn_conOut (s : State) (f : InFlight) : (s.holdIn f).conOut = s.conOut := rfl
@[simp] theorem State.holdIn_marks (s : State) (f : InFlight) : (s.holdIn f).marks = s.marks := rfl
@[simp] theorem State.holdIn_draws (s : State) (f : InFlight) : (s.holdIn f).draws = s.draws := rfl

/-! ### complete -/

@[simp] theorem State.complete_regs (s : State) : (s.complete).regs = s.regs := rfl
@[simp] theorem State.complete_pc (s : State) : (s.complete).pc = s.pc := rfl
@[simp] theorem State.complete_cond (s : State) : (s.complete).cond = s.cond := rfl
@[simp] theorem State.complete_mem (s : State) : (s.complete).mem = s.mem := rfl
@[simp] theorem State.complete_engine (s : State) : (s.complete).engine = s.engine := rfl
@[simp] theorem State.complete_pc0 (s : State) : (s.complete).pc0 = s.pc0 := rfl
@[simp] theorem State.complete_instr (s : State) : (s.complete).instr = s.instr := rfl
@[simp] theorem State.complete_inFlight (s : State) : (s.complete).inFlight = none := rfl
@[simp] theorem State.complete_conIn (s : State) : (s.complete).conIn = s.conIn := rfl
@[simp] theorem State.complete_conOut (s : State) : (s.complete).conOut = s.conOut := rfl
@[simp] theorem State.complete_marks (s : State) : (s.complete).marks = s.marks := rfl
@[simp] theorem State.complete_draws (s : State) : (s.complete).draws = s.draws := rfl

/-! ### hostSupplies -/

@[simp] theorem State.hostSupplies_regs (s : State) (l : List ConAnswer) : (s.hostSupplies l).regs = s.regs := rfl
@[simp] theorem State.hostSupplies_pc (s : State) (l : List ConAnswer) : (s.hostSupplies l).pc = s.pc := rfl
@[simp] theorem State.hostSupplies_cond (s : State) (l : List ConAnswer) : (s.hostSupplies l).cond = s.cond := rfl
@[simp] theorem State.hostSupplies_mem (s : State) (l : List ConAnswer) : (s.hostSupplies l).mem = s.mem := rfl
@[simp] theorem State.hostSupplies_engine (s : State) (l : List ConAnswer) : (s.hostSupplies l).engine = s.engine := rfl
@[simp] theorem State.hostSupplies_pc0 (s : State) (l : List ConAnswer) : (s.hostSupplies l).pc0 = s.pc0 := rfl
@[simp] theorem State.hostSupplies_instr (s : State) (l : List ConAnswer) : (s.hostSupplies l).instr = s.instr := rfl
@[simp] theorem State.hostSupplies_inFlight (s : State) (l : List ConAnswer) : (s.hostSupplies l).inFlight = s.inFlight := rfl
@[simp] theorem State.hostSupplies_conIn (s : State) (l : List ConAnswer) : (s.hostSupplies l).conIn = s.conIn ++ l := rfl
@[simp] theorem State.hostSupplies_conOut (s : State) (l : List ConAnswer) : (s.hostSupplies l).conOut = s.conOut := rfl
@[simp] theorem State.hostSupplies_marks (s : State) (l : List ConAnswer) : (s.hostSupplies l).marks = s.marks := rfl
@[simp] theorem State.hostSupplies_draws (s : State) (l : List ConAnswer) : (s.hostSupplies l).draws = s.draws := rfl

/-! ### link -/

@[simp] theorem State.link_regs (s : State) : (s.link).regs = s.regs.set .r7 s.pc := rfl
@[simp] theorem State.link_pc (s : State) : (s.link).pc = s.pc := rfl
@[simp] theorem State.link_cond (s : State) : (s.link).cond = s.cond := rfl
@[simp] theorem State.link_mem (s : State) : (s.link).mem = s.mem := rfl
@[simp] theorem State.link_engine (s : State) : (s.link).engine = s.engine := rfl
@[simp] theorem State.link_pc0 (s : State) : (s.link).pc0 = s.pc0 := rfl
@[simp] theorem State.link_instr (s : State) : (s.link).instr = s.instr := rfl
@[simp] theorem State.link_inFlight (s : State) : (s.link).inFlight = s.inFlight := rfl
@[simp] theorem State.link_conIn (s : State) : (s.link).conIn = s.conIn := rfl
@[simp] theorem State.link_conOut (s : State) : (s.link).conOut = s.conOut := rfl
@[simp] theorem State.link_marks (s : State) : (s.link).marks = s.marks := rfl
@[simp] theorem State.link_draws (s : State) : (s.link).draws = s.draws := rfl

end Sys2Proof.Machine
end

