-- ==== Sys2Proof/Laws/Ops.lean ====
section
/-! SUPPORT. What each shared operation can do, said once: registers, the memory access layer, the console read, the string
loop, the end of a step, and the services. Later proofs cite these and do not unfold the operations. -/

namespace Sys2Proof.Machine

/-! ### Registers -/

@[simp] theorem Regs.get_set_same (x : Regs) (r : Reg) (v : Word) : (x.set r v).get r = v := by
  cases r <;> rfl

theorem Regs.get_set_other (x : Regs) {r q : Reg} (v : Word) (h : q ≠ r) : (x.set r v).get q = x.get q := by
  cases r <;> cases q <;> first | rfl | exact absurd rfl h

@[simp] theorem State.reg_setReg_same (s : State) (r : Reg) (v : Word) : (s.setReg r v).reg r = v :=
  s.regs.get_set_same r v

theorem State.reg_setReg_other (s : State) {r q : Reg} (v : Word) (h : q ≠ r) : (s.setReg r v).reg q = s.reg q :=
  s.regs.get_set_other v h

/-- Two states with the same register file have the same registers. -/
theorem State.reg_congr {s t : State} (h : t.regs = s.regs) (r : Reg) : t.reg r = s.reg r := by
  simp [State.reg, h]

/-- Two states with the same memory read alike. -/
theorem State.rawRead_congr {s t : State} (h : t.mem = s.mem) (a : Word) : t.rawRead a = s.rawRead a := by
  simp [State.rawRead, h]

/-! ### Flags -/

/-- R80's three cases, which exclude each other. -/
theorem flagsOf_cases (v : Word) :
    (v = 0 ∧ flagsOf v = condZ) ∨ (v ≠ 0 ∧ v.getLsbD 15 = true ∧ flagsOf v = condN) ∨
      (v ≠ 0 ∧ v.getLsbD 15 = false ∧ flagsOf v = condP) := by
  unfold flagsOf
  split
  · next h => exact .inl ⟨h, rfl⟩
  · next h =>
    split
    · next hb => exact .inr (.inl ⟨h, hb, rfl⟩)
    · next hb => exact .inr (.inr ⟨h, Bool.eq_false_of_not_eq_true hb, rfl⟩)

/-- `setcc` leaves exactly one flag set (R80). -/
theorem flagsOf_oneFlag (v : Word) : condOneFlag (flagsOf v) := by
  rcases flagsOf_cases v with ⟨_, h⟩ | ⟨_, _, h⟩ | ⟨_, _, h⟩ <;> simp [condOneFlag, h]

/-- The two forms of R100 agree. -/
theorem branchTaken_eq_branchBits (n z p : Bool) (cond : Word) : branchTaken n z p cond = branchBits n z p cond := by
  have h : ∀ b : BitVec 3, (n && b.getLsbD 2 || z && b.getLsbD 1 || p && b.getLsbD 0) =
      ((BitVec.ofBool n ++ BitVec.ofBool z ++ BitVec.ofBool p) &&& b != 0#3) := by
    revert n z p
    decide
  simpa [branchTaken, branchBits, flagN, flagZ, flagP] using h (cond.extractLsb' 0 3)

/-! ### The memory access layer -/

/-- A poll changes only KBSR, KBDR, the console input and the draw counter (R43, R59). -/
theorem State.pollKeyboard_frame (s : State) :
    s.pollKeyboard.regs = s.regs ∧ s.pollKeyboard.pc = s.pc ∧ s.pollKeyboard.cond = s.cond ∧
    s.pollKeyboard.engine = s.engine ∧ s.pollKeyboard.pc0 = s.pc0 ∧ s.pollKeyboard.instr = s.instr ∧
    s.pollKeyboard.inFlight = s.inFlight ∧ s.pollKeyboard.conOut = s.conOut ∧ s.pollKeyboard.marks = s.marks ∧
    (∀ a, a ≠ Params.kbsr → a ≠ Params.kbdr → s.pollKeyboard.rawRead a = s.rawRead a) := by
  unfold State.pollKeyboard
  have other : ∀ (t : State) (d a : Word), a ≠ Params.kbsr → a ≠ Params.kbdr → (t.pollReady d).rawRead a = t.rawRead a := by
    intro t d a h1 h2
    unfold State.pollReady
    rw [State.rawRead_rawWrite_other _ _ h2, State.rawRead_rawWrite_other _ _ h1]
  have other' : ∀ (t : State) (a : Word), a ≠ Params.kbsr → t.pollNotReady.rawRead a = t.rawRead a := by
    intro t a h1
    unfold State.pollNotReady
    rw [State.rawRead_rawWrite_other _ _ h1]
  split
  · exact ⟨rfl, rfl, rfl, rfl, rfl, rfl, rfl, rfl, rfl, fun a h1 _ => other' _ _ h1⟩
  · exact ⟨rfl, rfl, rfl, rfl, rfl, rfl, rfl, rfl, rfl, fun a h1 _ => other' _ _ h1⟩
  · exact ⟨rfl, rfl, rfl, rfl, rfl, rfl, rfl, rfl, rfl, fun a h1 h2 => other _ _ _ h1 h2⟩
  · split
    · exact ⟨rfl, rfl, rfl, rfl, rfl, rfl, rfl, rfl, rfl, fun a h1 h2 => other _ _ _ h1 h2⟩
    · exact ⟨rfl, rfl, rfl, rfl, rfl, rfl, rfl, rfl, rfl, fun a h1 _ => other' _ _ h1⟩

/-- A poll keeps memory canonical. -/
theorem State.wf_pollKeyboard (s : State) (h : Memory.wf s.mem = true) : Memory.wf s.pollKeyboard.mem = true := by
  have ready : ∀ (t : State) (d : Word), Memory.wf t.mem = true → Memory.wf (t.pollReady d).mem = true :=
    fun t d ht => State.wf_rawWrite _ _ _ (State.wf_rawWrite t _ _ ht)
  have notReady : ∀ t : State, Memory.wf t.mem = true → Memory.wf t.pollNotReady.mem = true :=
    fun t ht => State.wf_rawWrite t _ _ ht
  unfold State.pollKeyboard
  split
  · exact notReady _ h
  · exact notReady _ h
  · exact ready _ _ h
  · split
    · exact ready _ _ h
    · exact notReady _ h

/-- A read of any address but KBSR has no effect (R42). -/
theorem State.memRead_plain (s : State) {a : Word} (h : a ≠ Params.kbsr) : s.memRead a = (s.rawRead a, s) := by
  simp [State.memRead, State.afterRead, h]

/-- A read of KBSR polls and returns what the poll stored (R43). -/
theorem State.memRead_kbsr (s : State) : s.memRead Params.kbsr = (s.pollKeyboard.rawRead Params.kbsr, s.pollKeyboard) := by
  simp [State.memRead, State.afterRead]

/-- What a read leaves alone, whatever its address. -/
theorem State.memRead_frame (s : State) (a : Word) :
    (s.memRead a).2.regs = s.regs ∧ (s.memRead a).2.pc = s.pc ∧ (s.memRead a).2.cond = s.cond ∧
    (s.memRead a).2.engine = s.engine ∧ (s.memRead a).2.pc0 = s.pc0 ∧ (s.memRead a).2.instr = s.instr ∧
    (s.memRead a).2.inFlight = s.inFlight ∧ (s.memRead a).2.conOut = s.conOut ∧ (s.memRead a).2.marks = s.marks ∧
    (∀ b, b ≠ Params.kbsr → b ≠ Params.kbdr → (s.memRead a).2.rawRead b = s.rawRead b) := by
  by_cases h : a = Params.kbsr
  · subst h
    rw [State.memRead_kbsr]
    exact s.pollKeyboard_frame
  · rw [State.memRead_plain s h]
    exact ⟨rfl, rfl, rfl, rfl, rfl, rfl, rfl, rfl, rfl, fun _ _ _ => rfl⟩

/-- A read keeps memory canonical. -/
theorem State.wf_memRead (s : State) (a : Word) (h : Memory.wf s.mem = true) : Memory.wf (s.memRead a).2.mem = true := by
  by_cases ha : a = Params.kbsr
  · subst ha
    rw [State.memRead_kbsr]
    exact s.wf_pollKeyboard h
  · rw [State.memRead_plain s ha]
    exact h

/-- A poll makes KBSR 0x8000 or 0x0000 (R43, R44). -/
theorem State.pollKeyboard_kbsr (s : State) :
    s.pollKeyboard.rawRead Params.kbsr = Params.kbsrReady ∨ s.pollKeyboard.rawRead Params.kbsr = 0 := by
  have ready : ∀ (t : State) (d : Word), (t.pollReady d).rawRead Params.kbsr = Params.kbsrReady := by
    intro t d
    unfold State.pollReady
    rw [State.rawRead_rawWrite_other _ _ (by decide), State.rawRead_rawWrite_same]
  have notReady : ∀ t : State, t.pollNotReady.rawRead Params.kbsr = 0 := fun t => State.rawRead_rawWrite_same t _ _
  unfold State.pollKeyboard
  split
  · exact .inr (notReady _)
  · exact .inr (notReady _)
  · exact .inl (ready _ _)
  · split
    · exact .inl (ready _ _)
    · exact .inr (notReady _)

/-! ### The fetch (R24) -/

@[simp] theorem State.fetch_pc (s : State) : s.fetch.pc = s.pc + 1 := rfl
@[simp] theorem State.fetch_pc0 (s : State) : s.fetch.pc0 = s.pc := rfl
theorem State.fetch_instr (s : State) : s.fetch.instr = (s.memRead s.pc).1 := rfl
theorem State.fetch_mem (s : State) : s.fetch.mem = (s.memRead s.pc).2.mem := rfl
theorem State.fetch_conIn (s : State) : s.fetch.conIn = (s.memRead s.pc).2.conIn := rfl
theorem State.fetch_draws (s : State) : s.fetch.draws = (s.memRead s.pc).2.draws := rfl
@[simp] theorem State.fetch_regs (s : State) : s.fetch.regs = s.regs := (s.memRead_frame s.pc).1
@[simp] theorem State.fetch_cond (s : State) : s.fetch.cond = s.cond := (s.memRead_frame s.pc).2.2.1
@[simp] theorem State.fetch_engine (s : State) : s.fetch.engine = s.engine := (s.memRead_frame s.pc).2.2.2.1
@[simp] theorem State.fetch_inFlight (s : State) : s.fetch.inFlight = s.inFlight := (s.memRead_frame s.pc).2.2.2.2.2.2.1
@[simp] theorem State.fetch_conOut (s : State) : s.fetch.conOut = s.conOut := (s.memRead_frame s.pc).2.2.2.2.2.2.2.1
@[simp] theorem State.fetch_marks (s : State) : s.fetch.marks = s.marks := (s.memRead_frame s.pc).2.2.2.2.2.2.2.2.1

/-- A fetch from 0xFE00 yields a reserved word or the no-op, so no other instruction is ever fetched there (R43). -/
theorem State.fetch_kbsr (s : State) (h : s.pc = Params.kbsr) : s.fetch.instr = 0x8000 ∨ s.fetch.instr = 0x0000 := by
  rw [State.fetch_instr, h, State.memRead_kbsr]
  exact s.pollKeyboard_kbsr

/-! ### The console read (R13) -/

/-- A read waits past failed polls. -/
theorem readAnswers_replicate (k : Nat) (l : List ConAnswer) :
    readAnswers (List.replicate k .notReady ++ l) = readAnswers l := by
  induction k with
  | zero => rfl
  | succ k ih => simpa [List.replicate_succ, readAnswers] using ih

@[simp] theorem readAnswers_byte (b : Byte) (rest : List ConAnswer) : readAnswers (.byte b :: rest) = (.byte b, rest) := rfl

@[simp] theorem readAnswers_endOfStream (rest : List ConAnswer) :
    readAnswers (.endOfStream :: rest) = (.endOfStream, .endOfStream :: rest) := rfl

/-- A read with nothing supplied waits. -/
theorem readAnswers_waiting (k : Nat) : readAnswers (List.replicate k .notReady) = (.waiting, []) := by
  simpa [readAnswers] using readAnswers_replicate k []

/-! ### The string loop (R163, R165) -/

/-- The address of the next word of a string, counted from its start. -/
theorem Word.add_one_add_ofNat (a : Word) (k : Nat) : a + 1 + BitVec.ofNat 16 k = a + BitVec.ofNat 16 (k + 1) := by
  apply BitVec.eq_of_toNat_eq
  simp [BitVec.toNat_add, BitVec.toNat_ofNat]
  omega

/-- The loop over a string of `n` words with a terminator after them, all within its fuel. -/
theorem stringLoop_terminated (bytesOf : Word → Option (List Byte)) (m : Memory) :
    ∀ (n fuel : Nat) (a : Word), n < fuel →
      (∀ k, k < n → ∃ bs, bytesOf (Memory.read m (a + BitVec.ofNat 16 k).toNat) = some bs) →
      bytesOf (Memory.read m (a + BitVec.ofNat 16 n).toNat) = none →
      stringLoop bytesOf m fuel a =
        ((List.range n).flatMap fun k => (bytesOf (Memory.read m (a + BitVec.ofNat 16 k).toNat)).getD [], true) := by
  intro n
  induction n with
  | zero =>
    intro fuel a hf _ ht
    obtain ⟨f, rfl⟩ : ∃ f, fuel = f + 1 := ⟨fuel - 1, by omega⟩
    have ht' : bytesOf (Memory.read m a.toNat) = none := by simpa using ht
    simp [stringLoop, ht']
  | succ n ih =>
    intro fuel a hf hk ht
    obtain ⟨f, rfl⟩ : ∃ f, fuel = f + 1 := ⟨fuel - 1, by omega⟩
    obtain ⟨bs, hbs⟩ := hk 0 (by omega)
    have hbs' : bytesOf (Memory.read m a.toNat) = some bs := by simpa using hbs
    have step := ih f (a + 1) (by omega)
      (fun k hkn => by rw [Word.add_one_add_ofNat]; exact hk (k + 1) (by omega)) (by rw [Word.add_one_add_ofNat]; exact ht)
    have head : (bytesOf (Memory.read m (a + BitVec.ofNat 16 0).toNat)).getD [] = bs := by rw [hbs]; rfl
    simp only [stringLoop, hbs', step, Word.add_one_add_ofNat, List.range_succ_eq_map, List.flatMap_cons, List.flatMap_map, head]

/-- The loop over words none of which ends the string runs out of its fuel, with the bytes of every word in order. -/
theorem stringLoop_unterminated (bytesOf : Word → Option (List Byte)) (m : Memory)
    (h : ∀ a : Word, ∃ bs, bytesOf (Memory.read m a.toNat) = some bs) :
    ∀ (fuel : Nat) (a : Word), stringLoop bytesOf m fuel a =
      ((List.range fuel).flatMap fun k => (bytesOf (Memory.read m (a + BitVec.ofNat 16 k).toNat)).getD [], false) := by
  intro fuel
  induction fuel with
  | zero => intro a; rfl
  | succ f ih =>
    intro a
    obtain ⟨bs, hbs⟩ := h a
    have head : (bytesOf (Memory.read m (a + BitVec.ofNat 16 0).toNat)).getD [] = bs := by
      simp [hbs]
    simp only [stringLoop, hbs, ih, Word.add_one_add_ofNat, List.range_succ_eq_map, List.flatMap_cons, List.flatMap_map, head]

/-! ### The end of a step (R184) -/

/-- What the end of a step can do: nothing, or halt with PcOverflow. -/
theorem State.endStep_cases (s : State) :
    s.endStep = s ∨ (s.endStep = s.halt .pcOverflow ∧ s.inFlight = none ∧ s.pc0 = Params.lastAddress ∧
      ∀ c p i, s.engine ≠ .aborted c p i) := by
  unfold State.endStep
  split
  · exact .inl rfl
  · exact .inl rfl
  · split
    · next hin hne hpc => exact .inr ⟨rfl, hin, hpc, fun c p i h => hne c p i h⟩
    · exact .inl rfl

end Sys2Proof.Machine
end

