-- ==== Sys2Proof/Laws/PerInstr.lean ====
section
/-! SUPPORT. The family EncodeRow: the encoder's word of an instruction lies in that instruction's row of the opcode table
(30_encoding.md R69), one lemma per constructor. -/

namespace Sys2Proof.Laws.EncodeRow

/-- The word the encoder writes is in the instruction's row: under the row's mask it is the row's match value. -/
def Statement (i : Instr) : Prop := encode i &&& i.row.2 = i.row.1

/-- Two words that agree on each bit the mask keeps. -/
theorem of_bits {w m v : Word} (h : ∀ k, k < 16 → (w.getLsbD k && m.getLsbD k) = v.getLsbD k) : w &&& m = v := by
  apply BitVec.eq_of_getLsbD_eq
  intro k hk
  rw [BitVec.getLsbD_and]
  exact h k hk

theorem addReg (dr sr1 sr2 : Reg) : Statement (.addReg dr sr1 sr2) := by
  refine of_bits fun k hk => ?_
  simp only [encode, Instr.row, BitVec.getLsbD_or, getLsbD_place]
  interval_cases k <;> simp [Opcode.toBits]

theorem addImm (dr sr1 : Reg) (imm : Word) : Statement (.addImm dr sr1 imm) := by
  refine of_bits fun k hk => ?_
  simp only [encode, Instr.row, BitVec.getLsbD_or, getLsbD_place]
  interval_cases k <;> simp [Opcode.toBits]

theorem andReg (dr sr1 sr2 : Reg) : Statement (.andReg dr sr1 sr2) := by
  refine of_bits fun k hk => ?_
  simp only [encode, Instr.row, BitVec.getLsbD_or, getLsbD_place]
  interval_cases k <;> simp [Opcode.toBits]

theorem andImm (dr sr1 : Reg) (imm : Word) : Statement (.andImm dr sr1 imm) := by
  refine of_bits fun k hk => ?_
  simp only [encode, Instr.row, BitVec.getLsbD_or, getLsbD_place]
  interval_cases k <;> simp [Opcode.toBits]

theorem not (dr sr : Reg) : Statement (.not dr sr) := by
  refine of_bits fun k hk => ?_
  simp only [encode, Instr.row, BitVec.getLsbD_or, getLsbD_place]
  interval_cases k <;> simp [Opcode.toBits]

theorem br (n z p : Bool) (off : Word) : Statement (.br n z p off) := by
  refine of_bits fun k hk => ?_
  simp only [encode, Instr.row, BitVec.getLsbD_or, getLsbD_place]
  interval_cases k <;> simp [Opcode.toBits]

theorem jmp (base : Reg) : Statement (.jmp base) := by
  refine of_bits fun k hk => ?_
  simp only [encode, Instr.row, BitVec.getLsbD_or, getLsbD_place]
  interval_cases k <;> simp [Opcode.toBits]

theorem jsr (off : Word) : Statement (.jsr off) := by
  refine of_bits fun k hk => ?_
  simp only [encode, Instr.row, BitVec.getLsbD_or, getLsbD_place]
  interval_cases k <;> simp [Opcode.toBits]

theorem jsrr (base : Reg) : Statement (.jsrr base) := by
  refine of_bits fun k hk => ?_
  simp only [encode, Instr.row, BitVec.getLsbD_or, getLsbD_place]
  interval_cases k <;> simp [Opcode.toBits]

theorem ld (dr : Reg) (off : Word) : Statement (.ld dr off) := by
  refine of_bits fun k hk => ?_
  simp only [encode, Instr.row, BitVec.getLsbD_or, getLsbD_place]
  interval_cases k <;> simp [Opcode.toBits]

theorem ldi (dr : Reg) (off : Word) : Statement (.ldi dr off) := by
  refine of_bits fun k hk => ?_
  simp only [encode, Instr.row, BitVec.getLsbD_or, getLsbD_place]
  interval_cases k <;> simp [Opcode.toBits]

theorem ldr (dr base : Reg) (off : Word) : Statement (.ldr dr base off) := by
  refine of_bits fun k hk => ?_
  simp only [encode, Instr.row, BitVec.getLsbD_or, getLsbD_place]
  interval_cases k <;> simp [Opcode.toBits]

theorem lea (dr : Reg) (off : Word) : Statement (.lea dr off) := by
  refine of_bits fun k hk => ?_
  simp only [encode, Instr.row, BitVec.getLsbD_or, getLsbD_place]
  interval_cases k <;> simp [Opcode.toBits]

theorem st (sr : Reg) (off : Word) : Statement (.st sr off) := by
  refine of_bits fun k hk => ?_
  simp only [encode, Instr.row, BitVec.getLsbD_or, getLsbD_place]
  interval_cases k <;> simp [Opcode.toBits]

theorem sti (sr : Reg) (off : Word) : Statement (.sti sr off) := by
  refine of_bits fun k hk => ?_
  simp only [encode, Instr.row, BitVec.getLsbD_or, getLsbD_place]
  interval_cases k <;> simp [Opcode.toBits]

theorem str (sr base : Reg) (off : Word) : Statement (.str sr base off) := by
  refine of_bits fun k hk => ?_
  simp only [encode, Instr.row, BitVec.getLsbD_or, getLsbD_place]
  interval_cases k <;> simp [Opcode.toBits]

theorem trap (vector : Byte) : Statement (.trap vector) := by
  refine of_bits fun k hk => ?_
  simp only [encode, Instr.row, BitVec.getLsbD_or, getLsbD_place]
  interval_cases k <;> simp [Opcode.toBits]

theorem reserved8 : Statement (.reserved8) := by
  refine of_bits fun k hk => ?_
  simp only [encode, Instr.row, getLsbD_place]
  interval_cases k <;> simp [Opcode.toBits]

theorem reserved13 : Statement (.reserved13) := by
  refine of_bits fun k hk => ?_
  simp only [encode, Instr.row, getLsbD_place]
  interval_cases k <;> simp [Opcode.toBits]

end Sys2Proof.Laws.EncodeRow
end

