-- ==== Sys2Proof/Laws/Trap.lean ====
section
/-! SUPPORT. What the console services can do, said once: the three answers of a console read, a pass of a string service,
and what every service leaves alone. -/

namespace Sys2Proof.Machine

/-! ### The vector table (R160) -/

/-- Only x25 is HALT, and exactly the vectors outside x20 to x25 are undefined. -/
theorem Service.ofVector_spec (v : Byte) :
    (Service.ofVector v = some .halt ↔ v = 0x25) ∧ (Service.ofVector v = none ↔ v.toNat < 0x20 ∨ 0x25 < v.toNat) := by
  revert v
  decide

/-! ### GETC and IN, by what the console read answers -/

theorem State.getcRead_byte {s : State} {b : Byte} {rest : List ConAnswer} (h : readAnswers s.conIn = (.byte b, rest)) :
    s.getcRead = { s with conIn := rest, regs := s.regs.set .r0 (zext16 b), inFlight := none } := by
  unfold State.getcRead State.conRead
  rw [h]
  rfl

theorem State.getcRead_endOfStream {s : State} {rest : List ConAnswer}
    (h : readAnswers s.conIn = (.endOfStream, rest)) :
    s.getcRead = { s with
      conIn := rest
      regs := s.regs.set .r0 (Config.eofSentinel s.draws)
      draws := s.draws + 1
      marks := s.marks ++ [⟨.consoleEndOfStream, s.pc0, s.instr⟩]
      inFlight := none } := by
  unfold State.getcRead State.conRead
  rw [h]
  rfl

theorem State.getcRead_waiting {s : State} {rest : List ConAnswer} (h : readAnswers s.conIn = (.waiting, rest)) :
    s.getcRead = { s with conIn := rest, inFlight := some .getc } := by
  unfold State.getcRead State.conRead
  rw [h]
  rfl

theorem State.inReadEcho_byte {s : State} {b : Byte} {rest : List ConAnswer} (h : readAnswers s.conIn = (.byte b, rest)) :
    s.inReadEcho = { s with
      conIn := rest
      regs := s.regs.set .r0 (zext16 b)
      conOut := s.conOut ++ [.out b] ++ [.flush]
      inFlight := none } := by
  unfold State.inReadEcho State.conRead
  rw [h]
  rfl

theorem State.inReadEcho_endOfStream {s : State} {rest : List ConAnswer}
    (h : readAnswers s.conIn = (.endOfStream, rest)) :
    s.inReadEcho = { s with
      conIn := rest
      regs := s.regs.set .r0 (Config.eofSentinel s.draws)
      draws := s.draws + 1
      conOut := s.conOut ++ (Config.eofEcho s.draws).toList.map ConEvent.out ++ [.flush]
      marks := s.marks ++ [⟨.consoleEndOfStream, s.pc0, s.instr⟩]
      inFlight := none } := by
  unfold State.inReadEcho State.conRead
  rw [h]
  rfl

theorem State.inReadEcho_waiting {s : State} {rest : List ConAnswer} (h : readAnswers s.conIn = (.waiting, rest)) :
    s.inReadEcho = { s with conIn := rest, inFlight := some .inRead } := by
  unfold State.inReadEcho State.conRead
  rw [h]
  rfl

/-! ### A pass of a string service -/

theorem State.stringPass_terminated {s : State} {bytesOf : Word → Option (List Byte)} {a : Word} {again : InFlight}
    {bs : List Byte} (h : stringLoop bytesOf s.mem Params.memoryWords a = (bs, true)) :
    s.stringPass bytesOf a again = (s.conWriteAll bs).conFlush.complete := by
  unfold State.stringPass
  rw [h]

theorem State.stringPass_unterminated {s : State} {bytesOf : Word → Option (List Byte)} {a : Word} {again : InFlight}
    (h : (stringLoop bytesOf s.mem Params.memoryWords a).2 = false) :
    s.stringPass bytesOf a again =
      (s.conWriteAll (stringLoop bytesOf s.mem Params.memoryWords a).1).holdIn again := by
  unfold State.stringPass
  generalize stringLoop bytesOf s.mem Params.memoryWords a = x at h ⊢
  obtain ⟨bs, ended⟩ := x
  cases h
  rfl

/-! ### Frames -/

/-- What a service leaves alone: everything but R0, the console, the marks, the draws and whether it is in flight. -/
structure ServiceFrame (s t : State) : Prop where
  pc : t.pc = s.pc
  cond : t.cond = s.cond
  mem : t.mem = s.mem
  engine : t.engine = s.engine
  pc0 : t.pc0 = s.pc0
  instr : t.instr = s.instr
  regs : ∀ r, r ≠ .r0 → t.reg r = s.reg r

theorem State.getcRead_frame (s : State) : ServiceFrame s s.getcRead := by
  cases h : readAnswers s.conIn with
  | mk answer rest =>
    cases answer with
    | byte b =>
      rw [State.getcRead_byte h]
      exact ⟨rfl, rfl, rfl, rfl, rfl, rfl, fun _ hr => Regs.get_set_other s.regs _ hr⟩
    | endOfStream =>
      rw [State.getcRead_endOfStream h]
      exact ⟨rfl, rfl, rfl, rfl, rfl, rfl, fun _ hr => Regs.get_set_other s.regs _ hr⟩
    | waiting =>
      rw [State.getcRead_waiting h]
      exact ⟨rfl, rfl, rfl, rfl, rfl, rfl, fun _ _ => rfl⟩

theorem State.inReadEcho_frame (s : State) : ServiceFrame s s.inReadEcho := by
  cases h : readAnswers s.conIn with
  | mk answer rest =>
    cases answer with
    | byte b =>
      rw [State.inReadEcho_byte h]
      exact ⟨rfl, rfl, rfl, rfl, rfl, rfl, fun _ hr => Regs.get_set_other s.regs _ hr⟩
    | endOfStream =>
      rw [State.inReadEcho_endOfStream h]
      exact ⟨rfl, rfl, rfl, rfl, rfl, rfl, fun _ hr => Regs.get_set_other s.regs _ hr⟩
    | waiting =>
      rw [State.inReadEcho_waiting h]
      exact ⟨rfl, rfl, rfl, rfl, rfl, rfl, fun _ _ => rfl⟩

/-- A string service changes only the console output and whether it is in flight. -/
theorem State.stringPass_frame (s : State) (bytesOf : Word → Option (List Byte)) (a : Word) (again : InFlight) :
    ServiceFrame s (s.stringPass bytesOf a again) ∧ (s.stringPass bytesOf a again).regs = s.regs ∧
    (s.stringPass bytesOf a again).marks = s.marks ∧ (s.stringPass bytesOf a again).conIn = s.conIn ∧
    (s.stringPass bytesOf a again).draws = s.draws ∧
    ((s.stringPass bytesOf a again).inFlight = none ∨ (s.stringPass bytesOf a again).inFlight = some again) := by
  unfold State.stringPass
  generalize stringLoop bytesOf s.mem Params.memoryWords a = x
  obtain ⟨bs, ended⟩ := x
  cases ended
  · exact ⟨⟨rfl, rfl, rfl, rfl, rfl, rfl, fun _ _ => rfl⟩, rfl, rfl, rfl, rfl, .inr rfl⟩
  · exact ⟨⟨rfl, rfl, rfl, rfl, rfl, rfl, fun _ _ => rfl⟩, rfl, rfl, rfl, rfl, .inl rfl⟩

/-- Every service but HALT. -/
theorem State.serve_frame (s : State) {sv : Service} (h : sv ≠ .halt) : ServiceFrame s (s.serve sv) := by
  cases sv with
  | getc => exact s.getcRead_frame
  | out => exact ⟨rfl, rfl, rfl, rfl, rfl, rfl, fun _ _ => rfl⟩
  | puts => exact (s.stringPass_frame _ _ _).1
  | inChar =>
    obtain ⟨h1, h2, h3, h4, h5, h6, h7⟩ := (s.conWriteAll Config.inPrompt).inReadEcho_frame
    exact ⟨h1, h2, h3, h4, h5, h6, h7⟩
  | putsp => exact (s.stringPass_frame _ _ _).1
  | halt => exact absurd rfl h

/-- A service in flight that goes on. -/
theorem State.resume_frame (s : State) (f : InFlight) : ServiceFrame s (s.resume f) := by
  cases f with
  | getc => exact s.getcRead_frame
  | inRead => exact s.inReadEcho_frame
  | puts a => exact (s.stringPass_frame _ _ _).1
  | putsp a => exact (s.stringPass_frame _ _ _).1

/-- The dispatcher, for every vector but x25. -/
theorem State.dispatchTrap_frame (s : State) {v : Byte} (h : v ≠ 0x25) : ServiceFrame s (s.dispatchTrap v) := by
  unfold State.dispatchTrap
  cases hv : Service.ofVector v with
  | none => exact ⟨rfl, rfl, rfl, rfl, rfl, rfl, fun _ _ => rfl⟩
  | some sv => exact s.serve_frame (fun e => h ((Service.ofVector_spec v).1.mp (by rw [hv, e])))

/-- The dispatcher on x25 (R166). -/
theorem State.dispatchTrap_halt (s : State) :
    s.dispatchTrap 0x25 = ((s.conWriteAll Config.haltMsg).conFlush).halt .haltTrap := rfl

end Sys2Proof.Machine
end

