-- ==== Sys2Proof/Laws/Step.lean ====
section
/-! SUPPORT. What a step can do, said once: the inversion of `step`, what `exec` leaves alone, and how runs unfold. -/

namespace Sys2Proof.Machine

/-! ### Runs -/

/-- A run begins with its first step. -/
theorem run_of_step {n : Nat} {s t : State} (h : step s = .next t) :
    Host.Core.run Sys2Proof.core (n + 1) s = Host.Core.run Sys2Proof.core n t := by
  have e : ∀ (M : Host.Core) (s t : M.State), M.step s = .next t → Host.Core.run M (n + 1) s = Host.Core.run M n t := by
    intro M s t h
    have u : Host.Core.run M (n + 1) s = (match M.step s with
      | .next s' => Host.Core.run M n s' | .fault r => .fault r | .refused r => .refused r) := rfl
    rw [u, h]
  exact e Sys2Proof.core s t h

/-- A run that is still going takes one more step at its end. -/
theorem run_snoc {n : Nat} {s t u : State} (h : Host.Core.run Sys2Proof.core n s = .next t) (hu : step t = .next u) :
    Host.Core.run Sys2Proof.core (n + 1) s = .next u := by
  induction n generalizing s with
  | zero =>
    cases h
    exact run_of_step hu
  | succ n ih =>
    cases hs : step s with
    | next v => rw [run_of_step hs] at h ⊢; exact ih h
    | fault r =>
      have e : Host.Core.run Sys2Proof.core (n + 1) s = .fault r := by
        have e' : ∀ (M : Host.Core) (s : M.State) (r : M.Fault), M.step s = .fault r → Host.Core.run M (n + 1) s = .fault r := by
          intro M s r h
          have u : Host.Core.run M (n + 1) s = (match M.step s with
            | .next s' => Host.Core.run M n s' | .fault r => .fault r | .refused r => .refused r) := rfl
          rw [u, h]
        exact e' Sys2Proof.core s r hs
      rw [e] at h
      cases h
    | refused r =>
      have e : Host.Core.run Sys2Proof.core (n + 1) s = .refused r := by
        have e' : ∀ (M : Host.Core) (s : M.State) (r : M.Refusal), M.step s = .refused r → Host.Core.run M (n + 1) s = .refused r := by
          intro M s r h
          have u : Host.Core.run M (n + 1) s = (match M.step s with
            | .next s' => Host.Core.run M n s' | .fault r => .fault r | .refused r => .refused r) := rfl
          rw [u, h]
        exact e' Sys2Proof.core s r hs
      rw [e] at h
      cases h

/-! ### The step -/

/-- A new step whose instruction has an effect. -/
theorem step_of_exec {s u : State} (he : s.engine = .running) (hf : s.inFlight = none)
    (hx : exec (decode s.fetch.instr) s.fetch = .next u) : step s = .next u.endStep := by
  simp [step, cycle, he, hf, runInstruction, hx, endOutcome]

/-- A step that goes on with a service in flight. -/
theorem step_of_inFlight {s : State} {f : InFlight} (he : s.engine = .running) (hf : s.inFlight = some f) :
    step s = .next (s.resume f).endStep := by
  simp [step, cycle, he, hf]

/-- Every step that answers a next state is one of the two, from Running. -/
theorem step_cases {s t : State} (h : step s = .next t) :
    s.engine = .running ∧
    ((s.inFlight = none ∧ ∃ u, exec (decode s.fetch.instr) s.fetch = .next u ∧ t = u.endStep) ∨
      (∃ f, s.inFlight = some f ∧ t = (s.resume f).endStep)) := by
  cases he : s.engine with
  | halted r => simp [step, cycle, he] at h
  | aborted c p i => simp [step, cycle, he] at h
  | running =>
    refine ⟨rfl, ?_⟩
    cases hf : s.inFlight with
    | some f =>
      rw [step_of_inFlight he hf] at h
      exact .inr ⟨f, rfl, (Host.Outcome.next.inj h).symm⟩
    | none =>
      have hx : ∃ u, exec (decode s.fetch.instr) s.fetch = .next u := by
        cases decode s.fetch.instr <;> exact ⟨_, rfl⟩
      obtain ⟨u, hu⟩ := hx
      rw [step_of_exec he hf hu] at h
      exact .inl ⟨rfl, u, hu, (Host.Outcome.next.inj h).symm⟩

/-- A step whose pc0 is not 0xFFFF has no overflow check to fail. -/
theorem State.endStep_of_ne {u : State} (h : u.pc0 ≠ Params.lastAddress) : u.endStep = u := by
  rcases u.endStep_cases with e | ⟨_, _, e, _⟩
  · exact e
  · exact absurd e h

/-- A complete, unaborted step fetched from 0xFFFF halts. -/
theorem State.endStep_of_eq {u : State} (hf : u.inFlight = none) (hp : u.pc0 = Params.lastAddress)
    (he : ∀ c p i, u.engine ≠ .aborted c p i) : u.endStep = u.halt .pcOverflow := by
  unfold State.endStep
  split
  · next h => exact absurd h (he _ _ _)
  · next h _ => simp [hf] at h
  · rw [if_pos hp]

/-! ### What every instruction leaves alone -/

/-- No instruction changes the step's hidden state, and one that is neither TRAP nor reserved touches neither the engine,
nor the service in flight, nor the marks, nor the console output. -/
theorem exec_frame {i : Instr} {s t : State} (h : exec i s = .next t) :
    t.pc0 = s.pc0 ∧ t.instr = s.instr ∧
    ((∀ v, i ≠ .trap v) → i ≠ .reserved8 → i ≠ .reserved13 →
      t.engine = s.engine ∧ t.inFlight = s.inFlight ∧ t.marks = s.marks ∧ t.conOut = s.conOut) := by
  cases i <;> cases h
  case trap v =>
    refine ⟨?_, ?_, fun hv => absurd rfl (hv v)⟩
    · by_cases hv : v = 0x25
      · subst hv; rfl
      · exact (s.dispatchTrap_frame hv).pc0
    · by_cases hv : v = 0x25
      · subst hv; rfl
      · exact (s.dispatchTrap_frame hv).instr
  case br n z p off => split <;> exact ⟨rfl, rfl, fun _ _ _ => ⟨rfl, rfl, rfl, rfl⟩⟩
  case ld dr off =>
    obtain ⟨_, _, _, he, h0, hi, hf, ho, hm, _⟩ := s.memRead_frame (s.eaPcRelative off)
    exact ⟨h0, hi, fun _ _ _ => ⟨he, hf, hm, ho⟩⟩
  case ldr dr base off =>
    obtain ⟨_, _, _, he, h0, hi, hf, ho, hm, _⟩ := s.memRead_frame (s.eaBaseOffset base off)
    exact ⟨h0, hi, fun _ _ _ => ⟨he, hf, hm, ho⟩⟩
  case ldi dr off =>
    obtain ⟨_, _, _, he, h0, hi, hf, ho, hm, _⟩ := s.memRead_frame (s.eaPcRelative off)
    obtain ⟨_, _, _, he', h0', hi', hf', ho', hm', _⟩ := (s.eaIndirect off).2.memRead_frame (s.eaIndirect off).1
    exact ⟨h0'.trans h0, hi'.trans hi, fun _ _ _ => ⟨he'.trans he, hf'.trans hf, hm'.trans hm, ho'.trans ho⟩⟩
  case sti sr off =>
    obtain ⟨_, _, _, he, h0, hi, hf, ho, hm, _⟩ := s.memRead_frame (s.eaPcRelative off)
    exact ⟨h0, hi, fun _ _ _ => ⟨he, hf, hm, ho⟩⟩
  case reserved8 => exact ⟨rfl, rfl, fun _ h _ => absurd rfl h⟩
  case reserved13 => exact ⟨rfl, rfl, fun _ _ h => absurd rfl h⟩
  all_goals exact ⟨rfl, rfl, fun _ _ _ => ⟨rfl, rfl, rfl, rfl⟩⟩

end Sys2Proof.Machine
end

