-- ==== Sys2Proof/Tests/Slice0.lean ====
section
/-! SUPPORT. Tests of the model: each expected value is a vector of spec/95_test_vectors.md (named V<n> or S<n>) or a number
worked out from the rule cited, and for each obligation with hypotheses a witness that meets them. -/

namespace Sys2Proof.Tests

open Sys2Proof.Machine

/-! ### WellFormed refuses an operand just outside its field, and admits the ends of its range (R64) -/

theorem test_wf_imm5 :
    [Instr.addImm .r0 .r1 15, .addImm .r0 .r1 (-16), .addImm .r0 .r1 16, .addImm .r0 .r1 (-17),
     .andImm .r0 .r1 15, .andImm .r0 .r1 (-16), .andImm .r0 .r1 16, .andImm .r0 .r1 (-17)].map Instr.wellFormed
    = [true, true, false, false, true, true, false, false] := by decide

theorem test_wf_offset6 :
    [Instr.ldr .r0 .r1 31, .ldr .r0 .r1 (-32), .ldr .r0 .r1 32, .ldr .r0 .r1 (-33),
     .str .r0 .r1 31, .str .r0 .r1 (-32), .str .r0 .r1 32, .str .r0 .r1 (-33)].map Instr.wellFormed
    = [true, true, false, false, true, true, false, false] := by decide

theorem test_wf_offset9_br : [Instr.br true true true 255, .br true true true (-256), .br true true true 256,
    .br true true true (-257)].map Instr.wellFormed = [true, true, false, false] := by decide

theorem test_wf_offset9_loads : [Instr.ld .r0 255, .ld .r0 256, .ldi .r0 (-256), .ldi .r0 (-257), .lea .r0 (-256),
    .lea .r0 256].map Instr.wellFormed = [true, false, true, false, true, false] := by decide

theorem test_wf_offset9_stores : [Instr.st .r0 (-256), .st .r0 (-257), .sti .r0 255, .sti .r0 256].map Instr.wellFormed
    = [true, false, true, false] := by decide

theorem test_wf_offset11 : [Instr.jsr 1023, .jsr (-1024), .jsr 1024, .jsr (-1025)].map Instr.wellFormed
    = [true, true, false, false] := by decide

/-! ### Decoding, by words written out field by field from R61 and R62 -/

theorem test_decode_addReg : decode 0b0001_101_011_0_00_110 = .addReg .r5 .r3 .r6 := by decide
/-- V4: instr[4:3] = 11 is ignored. -/
theorem test_decode_addReg_unread : decode 0b0001_000_001_0_11_010 = .addReg .r0 .r1 .r2 := by decide
/-- V5. -/
theorem test_decode_addImm : decode 0b0001_111_111_1_11111 = .addImm .r7 .r7 (-1) := by decide
theorem test_decode_andReg : decode 0b0101_011_001_0_00_010 = .andReg .r3 .r1 .r2 := by decide
theorem test_decode_andImm : decode 0b0101_000_001_1_10000 = .andImm .r0 .r1 (-16) := by decide
/-- V6, both words. -/
theorem test_decode_not : decode 0b1001_000_000_000000 = .not .r0 .r0 ∧ decode 0b1001_010_010_111111 = .not .r2 .r2 := by decide
/-- V2, V3 and a word with one bit set each. -/
theorem test_decode_br : decode 0x0000 = .br false false false 0 ∧ decode 0b0000_1_1_1_111111111 = .br true true true (-1) ∧
    decode 0b0000_1_0_0_000000101 = .br true false false 5 ∧ decode 0b0000_0_1_0_000000101 = .br false true false 5 ∧
    decode 0b0000_0_0_1_011111111 = .br false false true 255 := by decide
/-- V7, and the unread bits set. -/
theorem test_decode_jmp : decode 0b1100_000_111_000000 = .jmp .r7 ∧ decode 0b1100_111_010_111111 = .jmp .r2 := by decide
/-- V10. -/
theorem test_decode_jsr : decode 0b0100_1_10000000000 = .jsr (-1024) ∧ decode 0b0100_1_01111111111 = .jsr 1023 := by decide
/-- V8, V9. -/
theorem test_decode_jsrr : decode 0b0100_0_00_111_000000 = .jsrr .r7 ∧ decode 0b0100_0_11_111_111111 = .jsrr .r7 := by decide
theorem test_decode_ld : decode 0b0010_001_000000010 = .ld .r1 2 := by decide
theorem test_decode_ldi : decode 0b1010_101_100000000 = .ldi .r5 (-256) := by decide
theorem test_decode_ldr : decode 0b0110_100_101_111111 = .ldr .r4 .r5 (-1) := by decide
theorem test_decode_lea : decode 0b1110_011_111111111 = .lea .r3 (-1) := by decide
theorem test_decode_st : decode 0b0011_011_111111110 = .st .r3 (-2) := by decide
theorem test_decode_sti : decode 0b1011_001_011111111 = .sti .r1 255 := by decide
theorem test_decode_str : decode 0b0111_010_001_100000 = .str .r2 .r1 (-32) := by decide
/-- V11, V12: instr[11:8] is ignored. -/
theorem test_decode_trap : decode 0b1111_0000_00100101 = .trap 0x25 ∧ decode 0b1111_1111_00100101 = .trap 0x25 ∧
    decode 0xF026 = .trap 0x26 := by decide
/-- V13. -/
theorem test_decode_reserved : decode 0x8000 = .reserved8 ∧ decode 0x8FFF = .reserved8 ∧ decode 0xD000 = .reserved13 ∧
    decode 0xD123 = .reserved13 := by decide

/-- Encodings spec/ writes out (R72, V11, V21, V30, V41e and the programs P1 and P2). -/
theorem test_encode_spec_words : [Instr.addImm .r0 .r1 (-16), .not .r1 .r0, .jmp .r7, .jsr 7, .trap 0x25, .str .r2 .r2 1,
    .br false false true (-3), .ldi .r0 7].map encode
    = [0x1070, 0x923F, 0xC1C0, 0x4807, 0xF025, 0x7481, 0x03FD, 0xA007] := by decide

/-- A word is big-endian in an image (R201), and a lone byte is no word. -/
theorem test_decodeBytes : decodeBytes [0x10, 0x42, 0xF0] = .ok (.addReg .r0 .r1 .r2, [0xF0]) ∧
    decodeBytes [0xF0] = .error .shortWord ∧ decodeTableWord 16 0x1042 = some (.addReg .r0 .r1 .r2) := ⟨rfl, rfl, rfl⟩

/-- V1: every sext_5, and the ends of the other widths. -/
theorem test_sext : (List.range 32).map (fun n => sext (BitVec.ofNat 5 n)) =
      (List.range 16).map (BitVec.ofNat 16) ++ (List.range 16).map (fun n => BitVec.ofNat 16 (0xFFF0 + n)) ∧
    [sext 0x1F#6, sext 0x20#6, sext 0x3F#6, sext 0x0FF#9, sext 0x100#9, sext 0x1FF#9, sext 0x3FF#11, sext 0x400#11,
      sext 0x7FF#11] = [0x001F, 0xFFE0, 0xFFFF, 0x00FF, 0xFF00, 0xFFFF, 0x03FF, 0xFC00, 0xFFFF] := by decide

/-! ### One step -/

/-- `w` at `pc` in an otherwise reset machine that holds `cells` and `x`, COND = P. -/
def machineAt (pc w : Word) (cells : Memory) (x : Regs) : State :=
  { State.reset with pc := pc, regs := x, mem := Memory.write cells pc.toNat w }

/-- `machineAt` at 0x3000, where the vectors of spec/95_test_vectors.md stand. -/
def machine (w : Word) (cells : Memory) (x : Regs) : State := machineAt 0x3000 w cells x

/-- The register file with R1 and R2 given. -/
def r1r2 (a b : Word) : Regs := { Regs.zero with r1 := a, r2 := b }

/-- What one step leaves, seen through `f`; nothing where the step has no successor. -/
def after {α : Type} (f : State → α) (s : State) : Option α :=
  match step s with
  | .next t => some (f t)
  | .fault _ => none
  | .refused _ => none

/-- R0, COND, PC. -/
def r0CondPc (s : State) : Word × Word × Word := (s.reg .r0, s.cond, s.pc)

/-- V14. -/
theorem test_addReg_signed_overflow : after r0CondPc (machine 0x1042 [] (r1r2 0x7FFF 0x0001)) = some (0x8000, 4, 0x3001) := by decide
/-- V15. -/
theorem test_addReg_wraps : after r0CondPc (machine 0x1042 [] (r1r2 0xFFFF 0x0001)) = some (0x0000, 2, 0x3001) := by decide
/-- V21. -/
theorem test_addImm_negative : after r0CondPc (machine 0x1070 [] (r1r2 5 0)) = some (0xFFF5, 4, 0x3001) := by decide
/-- V20: DR = SR1. -/
theorem test_addImm_in_place : after (fun t => (t.reg .r7, t.cond)) (machine 0x1FFF [] Regs.zero) = some (0xFFFF, 4) := by decide
/-- V26. -/
theorem test_andReg : after (fun t => (t.reg .r3, t.cond)) (machine 0x5642 [] (r1r2 0x00F0 0x0F30)) = some (0x0030, 1) := by decide
/-- V25. -/
theorem test_andReg_zero : after r0CondPc (machine 0x5042 [] (r1r2 0xAAAA 0x5555)) = some (0x0000, 2, 0x3001) := by decide
/-- V28. -/
theorem test_andImm_sign : after r0CondPc (machine 0x5070 [] (r1r2 0x8001 0)) = some (0x8000, 4, 0x3001) := by decide
/-- V27. -/
theorem test_andImm_clears : after r0CondPc (machine 0x5020 [] { Regs.zero with r0 := 0xBEEF }) = some (0, 2, 0x3001) := by decide
/-- V32. -/
theorem test_not : after (fun t => (t.reg .r1, t.cond)) (machine 0x923F [] { Regs.zero with r0 := 0x8000 }) = some (0x7FFF, 1) := by decide
/-- V33: DR = SR. -/
theorem test_not_in_place : after (fun t => (t.reg .r2, t.cond)) (machine 0x94BF [] (r1r2 0 0x7FFF)) = some (0x8000, 4) := by decide

/-- V34, all of it: the columns are 000, p, z, zp, n, np, nz, nzp. -/
theorem test_branch_table :
    [condN, condZ, condP, 0].map (fun c => [branchTaken false false false c, branchTaken false false true c,
      branchTaken false true false c, branchTaken false true true c, branchTaken true false false c,
      branchTaken true false true c, branchTaken true true false c, branchTaken true true true c])
    = [[false, false, false, false, true, true, true, true], [false, false, true, true, false, false, true, true],
       [false, true, false, true, false, true, false, true], [false, false, false, false, false, false, false, false]] := by decide
/-- V36: the target wraps, and that is no overflow halt. -/
theorem test_br_wraps : after (fun t => (t.pc, t.engine)) (machineAt 0xFFF0 0x02FF [] Regs.zero) = some (0x00F0, .running) := by decide
/-- S5, its first half: no condition bit, no branch. -/
theorem test_br_never : after r0CondPc { machine 0x0005 [] Regs.zero with cond := 2 } = some (0, 2, 0x3001) := by decide
/-- V37. -/
theorem test_jmp : after r0CondPc (machine 0xC080 [] (r1r2 0 0x4000)) = some (0, 1, 0x4000) := by decide
/-- V75. -/
theorem test_jmp_at_top : after (fun t => (t.pc, t.haltReason)) (machineAt 0xFFFF 0xC080 [] (r1r2 0 0x3000)) =
    some (0x3000, some .pcOverflow) := by decide
/-- V39. -/
theorem test_jsr_back : after (fun t => (t.reg .r7, t.pc)) (machine 0x4C00 [] Regs.zero) = some (0x3001, 0x2C01) := by decide
/-- V39d. -/
theorem test_jsr_at_top : after (fun t => (t.reg .r7, t.pc, t.haltReason)) (machineAt 0xFFFF 0x4810 [] Regs.zero) =
    some (0x0000, 0x0010, some .pcOverflow) := by decide
/-- V39a. -/
theorem test_jsrr : after (fun t => (t.reg .r7, t.pc)) (machine 0x40C0 [] { Regs.zero with r3 := 0x5000 }) =
    some (0x3001, 0x5000) := by decide
/-- V39b, and V39c under the parameter's other value. -/
theorem test_jsrr_r7 : after (fun t => (t.reg .r7, t.pc)) (machine 0x41C0 [] { Regs.zero with r7 := 0x5000 }) =
      some (0x3001, 0x3001) ∧
    ((State.linkAndJump true .r7 { State.reset with pc := 0x3001, regs := { Regs.zero with r7 := 0x5000 } }).pc = 0x5000) := by decide

/-- V40a. -/
theorem test_ld : after (fun t => (t.reg .r1, t.cond)) (machine 0x2202 [(0x3003, 0xBEEF)] Regs.zero) = some (0xBEEF, 4) := by decide
/-- V40b: the address wraps. -/
theorem test_ld_wraps : after r0CondPc (machineAt 0x0000 0x2100 [(0xFF01, 0x0001)] Regs.zero) = some (1, 1, 1) := by decide
/-- S6. -/
theorem test_ldi : after (fun t => (t.reg .r5, t.cond)) (machine 0xAA00 [(0x3001, 0x4000), (0x4000, 0x1234)] Regs.zero) =
    some (0x1234, 1) := by decide
/-- V40d: the pointee is KBSR, so its read polls. -/
theorem test_ldi_polls : after (fun t => (t.reg .r5, t.cond, t.rawRead 0xFE00, t.rawRead 0xFE02, t.conIn))
    { machine 0xAA00 [(0x3001, 0xFE00)] Regs.zero with conIn := [.byte 0x6B] } = some (0x8000, 4, 0x8000, 0x006B, []) := by decide
/-- V40f: DR = BaseR. -/
theorem test_ldr_in_place : after (fun t => (t.reg .r1, t.cond)) (machine 0x6240 [(0x4000, 0x0009)] (r1r2 0x4000 0)) =
    some (0x0009, 1) := by decide
/-- V40g. -/
theorem test_ldr_wraps : after r0CondPc (machine 0x607F [(0xFFFF, 0x8001)] Regs.zero) = some (0x8001, 4, 0x3001) := by decide
/-- V40h. -/
theorem test_lea_zero : after (fun t => (t.reg .r3, t.cond)) (machineAt 0x0000 0xE7FF [] Regs.zero) = some (0x0000, 2) := by decide
/-- V40j. -/
theorem test_lea_negative : after r0CondPc (machineAt 0x7FFF 0xE000 [] Regs.zero) = some (0x8000, 4, 0x8000) := by decide

/-- V41a. -/
theorem test_st : after (fun t => (t.rawRead 0x2FFF, t.cond)) (machine 0x37FE [] { Regs.zero with r3 := 0x1234 }) =
    some (0x1234, 1) := by decide
/-- V41b: the stored word is the next instruction. -/
theorem test_st_next_instruction : after (fun t => decode t.fetch.instr) (machine 0x3000 [] { Regs.zero with r0 := 0x1021 }) =
    some (.addImm .r0 .r0 1) := by decide
/-- V41c. -/
theorem test_sti : after (fun t => (t.rawRead 0x4000, t.cond)) (machine 0xB200 [(0x3001, 0x4000)] (r1r2 0x0041 0)) =
    some (0x0041, 1) := by decide
/-- V41d: the pointer word itself. -/
theorem test_sti_pointer : after (fun t => t.rawRead 0x3001) (machine 0xB200 [(0x3001, 0x3001)] (r1r2 0x0041 0)) =
    some 0x0041 := by decide
/-- V41e: SR = BaseR. -/
theorem test_str : after (fun t => t.rawRead 0x4001) (machine 0x7481 [] (r1r2 0 0x4000)) = some 0x4000 := by decide
/-- V41g: a store to KBSR has no console effect. -/
theorem test_str_kbsr : after (fun t => (t.rawRead 0xFE00, t.conIn, t.conOut))
    { machine 0x7040 [] { Regs.zero with r0 := 0x1234, r1 := 0xFE00 } with conIn := [.byte 0x41] } =
    some (0x1234, [.byte 0x41], []) := by decide

/-- V60: no output, COND and R7 as before. -/
theorem test_getc : after (fun t => (r0CondPc t, t.reg .r7, t.conIn, t.conOut))
    { machine 0xF020 [] Regs.zero with conIn := [.notReady, .byte 0x41, .byte 0x42] } =
    some ((0x0041, 1, 0x3001), 0, [.byte 0x42], []) := by decide
/-- V61: whatever the sentinel is. -/
theorem test_getc_end : after (fun t => (t.reg .r0, t.marks, t.engine)) { machine 0xF020 [] Regs.zero with conIn := [.endOfStream] } =
    some (Config.eofSentinel 0, [⟨.consoleEndOfStream, 0x3000, 0xF020⟩], .running) := rfl
/-- V62, V70. -/
theorem test_out : after (fun t => (t.conOut, t.reg .r7)) (machine 0xF021 [] { Regs.zero with r0 := 0x1241, r7 := 0xAAAA }) =
    some ([.out 0x41], 0xAAAA) := by decide
/-- V63. -/
theorem test_puts : after State.conOut (machine 0xF022 [(0x4000, 0x0048), (0x4001, 0x4169), (0x4003, 0x0058)]
    { Regs.zero with r0 := 0x4000 }) = some [.out 0x48, .out 0x69, .flush] := by decide
/-- V64: a word with a zero low byte does not end PUTS. -/
theorem test_puts_low_zero : after State.conOut (machine 0xF022 [(0x4000, 0x4100)] { Regs.zero with r0 := 0x4000 }) =
    some [.out 0x00, .flush] := by decide
/-- V65. -/
theorem test_putsp : after State.conOut (machine 0xF024 [(0x4000, 0x6948), (0x4001, 0x0021), (0x4002, 0x4100), (0x4003, 0x0058)]
    { Regs.zero with r0 := 0x4000 }) = some [.out 0x48, .out 0x69, .out 0x21, .flush] := by decide
/-- V67. -/
theorem test_in : after (fun t => (t.conOut, t.reg .r0)) { machine 0xF023 [] Regs.zero with conIn := [.byte 0x37] } =
    some ([] ++ Config.inPrompt.map .out ++ [.out 0x37] ++ [.flush], 0x0037) := rfl
/-- V68. -/
theorem test_halt : after (fun t => (t.conOut, t.haltReason, t.pc)) (machine 0xF025 [] Regs.zero) =
    some ([] ++ Config.haltMsg.map .out ++ [.flush], some .haltTrap, 0x3001) := rfl
/-- V69. -/
theorem test_trap_undefined : after (fun t => (r0CondPc t, t.engine, t.marks)) (machine 0xF026 [] { Regs.zero with r0 := 0x1234 }) =
    some ((0x1234, 1, 0x3001), .running, [⟨.undefinedTrapVector, 0x3000, 0xF026⟩]) := by decide
/-- V71. -/
theorem test_reserved13 : after (fun t => (t.faultCause, t.faultInfo, t.regs, t.cond)) (machine 0xD000 [] (r1r2 1 2)) =
    some (some 1, some (0x3000, 0xD000), r1r2 1 2, 1) := by decide
/-- V71: PC holds one of the two. -/
theorem test_reserved13_pc : (step (machine 0xD000 [] Regs.zero) = .next { (machine 0xD000 [] Regs.zero) with
    engine := .aborted .reservedOpcode 0x3000 0xD000, pc0 := 0x3000, instr := 0xD000, draws := 1,
    pc := if Config.abortPcIncremented 0 then 0x3001 else 0x3000 }) := rfl
/-- V72: no PcOverflow. -/
theorem test_reserved8_at_top : after (fun t => (t.engine, t.haltReason)) (machineAt 0xFFFF 0x8000 [] Regs.zero) =
    some (.aborted .reservedOpcode 0xFFFF 0x8000, none) := by decide
/-- V56: the fetch itself polls, and its answer is a reserved word. -/
theorem test_reserved8_fetched_from_kbsr : after (fun t => (t.faultInfo, t.rawRead 0xFE02))
    { State.reset with pc := 0xFE00, conIn := [.byte 0x41] } = some (some (0xFE00, 0x8000), 0x0041) := by decide
/-- V57. -/
theorem test_fetch_from_kbsr_idle : after (fun t => (t.pc, t.engine)) { State.reset with pc := 0xFE00 } =
    some (0xFE01, .running) := by decide
/-- V73. -/
theorem test_halt_at_top : after (fun t => (t.haltReason, t.conOut)) (machineAt 0xFFFF 0xF025 [] Regs.zero) =
    some (some .pcOverflow, [] ++ Config.haltMsg.map .out ++ [.flush]) := rfl
/-- V76. -/
theorem test_trap_undefined_at_top : after (fun t => (t.haltReason, t.inContract)) (machineAt 0xFFFF 0xF030 [] Regs.zero) =
    some (some .pcOverflow, false) := by decide
/-- V77: R30, the state has no successor. -/
theorem test_step_when_halted : step { State.reset with engine := .halted .haltTrap } = .fault (.halted .haltTrap) := rfl

/-! ### Memory and the poll -/

/-- V50. -/
theorem test_poll_idle : (State.memRead { State.reset with mem := [(0xFE00, 0x1234)] } 0xFE00).1 = 0 ∧
    (State.memRead { State.reset with mem := [(0xFE00, 0x1234)] } 0xFE00).2.mem = [] := by decide
/-- V51. -/
theorem test_poll_ready : (State.memRead { State.reset with conIn := [.byte 0x41] } 0xFE00).1 = 0x8000 ∧
    (State.memRead { State.reset with conIn := [.byte 0x41] } 0xFE00).2.mem = [(0xFE00, 0x8000), (0xFE02, 0x0041)] ∧
    (State.memRead { State.reset with conIn := [.byte 0x41] } 0xFE00).2.conIn = [] := by decide
/-- V53, V55: KBDR and 0xFE01 are plain words. -/
theorem test_no_poll : State.memRead { State.reset with mem := [(0xFE01, 0x5555), (0xFE02, 0x0041)], conIn := [.byte 0x42] } 0xFE02 =
      (0x0041, { State.reset with mem := [(0xFE01, 0x5555), (0xFE02, 0x0041)], conIn := [.byte 0x42] }) ∧
    (State.memRead { State.reset with mem := [(0xFE01, 0x5555), (0xFE02, 0x0041)], conIn := [.byte 0x42] } 0xFE01).1 = 0x5555 := by decide
/-- V54. -/
theorem test_write_kbdr : ((State.memWrite State.reset 0xFE02 0x7777).memRead 0xFE02).1 = 0x7777 := by decide
/-- R36: memory stays canonical, and a zero is not listed. -/
theorem test_memory_canonical : Memory.write (Memory.write (Memory.write [] 7 1) 3 2) 7 0 = [(3, 2)] ∧
    Memory.wf [(3, 2), (7, 1)] = true ∧ Memory.wf [(7, 1), (3, 2)] = false ∧ Memory.wf [(3, 0)] = false ∧
    Memory.wf [(65536, 1)] = false := by decide

/-- The image of 95_test_vectors.md P4: two words from 0xFFFE. -/
theorem test_load : (State.load 1 [0xFF, 0xFE, 0x10, 0x21, 0x10, 0x21]).toOption.map (fun s => (s.pc, s.mem)) =
    some (0xFFFE, [(0xFFFE, 0x1021), (0xFFFF, 0x1021)]) := by decide
/-- R202: one word more is past the top. -/
theorem test_load_past_top : parseImage [0xFF, 0xFE, 0x10, 0x21, 0x10, 0x21, 0x10, 0x21] = .error .pastTop := rfl

/-- The word is placed where the next step fetches, from reset. -/
theorem test_withFetchWord : after (fun t => (t.instr, t.reg .r7, t.pc)) (State.reset.withFetchWord 16 0x1FFF) =
    some (0x1FFF, 0xFFFF, 1) := by decide

/-! ### Witnesses: for each obligation with hypotheses, values that meet them, one for each of its clauses -/

theorem witness_step_runs : (machine 0x1042 [] Regs.zero).engine = .running ∧ (machine 0x1042 [] Regs.zero).inFlight = none ∧
    decode (machine 0x1042 [] Regs.zero).fetch.instr = .addReg .r0 .r1 .r2 ∧
    (Instr.addReg .r0 .r1 .r2).wellFormed = true ∧ (machine 0x1042 [] Regs.zero).pc ≠ 0xFFFF := by decide

theorem witness_step_runs_at_top : (machineAt 0xFFFF 0x1042 [] Regs.zero).pc = 0xFFFF ∧
    decode (machineAt 0xFFFF 0x1042 [] Regs.zero).fetch.instr = .addReg .r0 .r1 .r2 ∧
    exec (.addReg .r0 .r1 .r2) (machineAt 0xFFFF 0x1042 [] Regs.zero).fetch =
      .next ((machineAt 0xFFFF 0x1042 [] Regs.zero).fetch.writeResult .r0 0) ∧
    ((machineAt 0xFFFF 0x1042 [] Regs.zero).fetch.writeResult .r0 0).faultCause = none ∧
    ((machineAt 0xFFFF 0x1042 [] Regs.zero).fetch.writeResult .r0 0).inFlight = none := ⟨rfl, rfl, rfl, rfl, rfl⟩

/-- At 0xFFFF an aborting instruction and a waiting service are the other clause. -/
theorem witness_step_runs_at_top_exceptions :
    (machineAt 0xFFFF 0x8000 [] Regs.zero).fetch.abort.faultCause ≠ none ∧
    (machineAt 0xFFFF 0xF020 [] Regs.zero).fetch.getcRead.inFlight ≠ none := by decide

theorem witness_fetch : (machine 0x1042 [] Regs.zero).pc ≠ 0xFE00 ∧ (machineAt 0xFFFF 0x1042 [] Regs.zero).pc ≠ 0xFE00 ∧
    (machineAt 0xFE00 0 [] Regs.zero).pc = 0xFE00 := by decide

theorem witness_engines : ({ State.reset with engine := .halted .pcOverflow } : State).engine = .halted .pcOverflow ∧
    ({ State.reset with engine := .aborted .reservedOpcode 1 0x8000 } : State).engine = .aborted .reservedOpcode 1 0x8000 ∧
    State.reset.engine = .running := ⟨rfl, rfl, rfl⟩

theorem witness_fetch_from_top : (machineAt 0xFFFF 0x0000 [] Regs.zero).pc = 0xFFFF ∧
    exec (decode (machineAt 0xFFFF 0x0000 [] Regs.zero).fetch.instr) (machineAt 0xFFFF 0x0000 [] Regs.zero).fetch =
      .next (machineAt 0xFFFF 0x0000 [] Regs.zero).fetch ∧
    decode (machineAt 0xFFFF 0x0000 [] Regs.zero).fetch.instr ≠ .reserved8 ∧
    decode (machineAt 0xFFFF 0x0000 [] Regs.zero).fetch.instr ≠ .reserved13 ∧
    (machineAt 0xFFFF 0x0000 [] Regs.zero).fetch.inFlight = none ∧ (machineAt 0xFFFE 0x0000 [] Regs.zero).pc ≠ 0xFFFF :=
  ⟨rfl, rfl, by decide, by decide, rfl, by decide⟩

/-- GETC fetched from `pc` and waiting, with the host's answers. -/
def waiting (pc : Word) (f : InFlight) (answers : List ConAnswer) : State :=
  { State.reset with pc := pc + 1, pc0 := pc, instr := 0xF020, inFlight := some f, conIn := answers }

theorem witness_fetch_from_top_in_flight : (waiting 0xFFFF .getc [.byte 1]).engine = .running ∧
    (waiting 0xFFFF .getc [.byte 1]).inFlight = some .getc ∧ (waiting 0xFFFF .getc [.byte 1]).pc0 = 0xFFFF ∧
    ((waiting 0xFFFF .getc [.byte 1]).resume .getc).inFlight = none ∧ (waiting 0xFFFE .getc []).pc0 ≠ 0xFFFF := by decide

theorem witness_reserved : (machine 0x8FFF [] Regs.zero).engine = .running ∧ (machine 0x8FFF [] Regs.zero).inFlight = none ∧
    (machine 0x8FFF [] Regs.zero).fetch.instr.extractLsb' 12 4 = 8 ∧
    (machineAt 0xFFFF 0xD000 [] Regs.zero).fetch.instr.extractLsb' 12 4 = 13 := by decide

theorem witness_reserved_forms : (0x8123 : Word) &&& 0xF000 = 0x8000 ∧ (0xDFFF : Word) &&& 0xF000 = 0xD000 := by decide

/-- Both values of COND_RESET; an image that ends at 0xFFFF, and one with words below and above it. -/
theorem witness_boot : ((0x0000 : Word) = 0x0000 ∨ (0x0000 : Word) = 0x0001) ∧ ((0x0001 : Word) = 0x0000 ∨ (0x0001 : Word) = 0x0001) ∧
    (⟨0xFFFE, [0x1021, 0x1021]⟩ : Image).origin.toNat + (⟨0xFFFE, [0x1021, 0x1021]⟩ : Image).words.length ≤ 65536 ∧
    1 < (⟨0xFFFE, [0x1021, 0x1021]⟩ : Image).words.length ∧ (0xFFFD : Word).toNat < (0xFFFE : Word).toNat ∧
    (0x3000 : Word).toNat + [0xF025].length ≤ (0x3001 : Word).toNat := by decide

theorem witness_image : [(0x30 : Byte), 0x00, 0x10].length % 2 = 1 ∧ [(0x10 : Byte), 0x21].length % 2 = 0 ∧
    (0xFF : Byte).toNat * 256 + (0xFF : Byte).toNat + [(0x10 : Byte), 0x21].length / 2 ≤ 65536 ∧
    (0xFF : Byte).toNat * 256 + (0xFF : Byte).toNat + [(0x10 : Byte), 0x21, 0x10, 0x21].length / 2 > 65536 := by decide

/-- The invariant holds at reset and in a state no run reaches, and both have a step. -/
theorem witness_invariant : State.Inv State.reset ∧ (∃ t, step State.reset = .next t) ∧
    State.Inv { State.reset with cond := 0, marks := [⟨.consoleEndOfStream, 0x1234, 0xF023⟩] } :=
  ⟨⟨rfl, .inl (.inr (.inr rfl)), trivial, (fun _ h => nomatch h), (fun _ h => nomatch h)⟩, ⟨_, rfl⟩,
    ⟨rfl, .inr rfl, trivial, (fun _ h => nomatch h), (fun m h => by rw [List.mem_singleton.mp h]; exact .inr rfl)⟩⟩

theorem witness_encode : (Instr.addImm .r7 .r0 (-16)).wellFormed = true ∧ (Instr.jsr 1023).wellFormed = true ∧
    (Instr.ldr .r1 .r2 31).wellFormed = true ∧ (Instr.br true false true (-256)).wellFormed = true := by decide

/-- Each width has a field with its top bit 0 and one with its top bit 1. -/
theorem witness_sext : (0x0F#5).getLsbD 4 = false ∧ (0x10#5).getLsbD 4 = true ∧ (0x1F#6).getLsbD 5 = false ∧
    (0x20#6).getLsbD 5 = true ∧ (0x0FF#9).getLsbD 8 = false ∧ (0x100#9).getLsbD 8 = true ∧
    (0x3FF#11).getLsbD 10 = false ∧ (0x400#11).getLsbD 10 = true := by decide

theorem witness_operate_words :
    ((0x105A : Word) &&& 0xF020 = 0x1000 ∧ (0x105A : Word).extractLsb' 9 3 = Reg.r0.toBits ∧
      (0x105A : Word).extractLsb' 6 3 = Reg.r1.toBits ∧ (0x105A : Word).extractLsb' 0 3 = Reg.r2.toBits) ∧
    ((0x1FFF : Word) &&& 0xF020 = 0x1020 ∧ (0x1FFF : Word).extractLsb' 9 3 = Reg.r7.toBits ∧
      (0x1FFF : Word).extractLsb' 6 3 = Reg.r7.toBits ∧ (0xFFFF : Word) = ((0x1FFF : Word).extractLsb' 0 5).signExtend 16) ∧
    ((0x5642 : Word) &&& 0xF020 = 0x5000 ∧ (0x5642 : Word).extractLsb' 9 3 = Reg.r3.toBits ∧
      (0x5642 : Word).extractLsb' 6 3 = Reg.r1.toBits ∧ (0x5642 : Word).extractLsb' 0 3 = Reg.r2.toBits) ∧
    ((0x5070 : Word) &&& 0xF020 = 0x5020 ∧ (0x5070 : Word).extractLsb' 9 3 = Reg.r0.toBits ∧
      (0x5070 : Word).extractLsb' 6 3 = Reg.r1.toBits ∧ (0xFFF0 : Word) = ((0x5070 : Word).extractLsb' 0 5).signExtend 16) ∧
    ((0x94BF : Word) &&& 0xF000 = 0x9000 ∧ (0x94BF : Word).extractLsb' 9 3 = Reg.r2.toBits ∧
      (0x94BF : Word).extractLsb' 6 3 = Reg.r2.toBits) := by decide

/-- BR taken and not taken; JMP; JSR; JSRR with BaseR = R7 and another. -/
theorem witness_control_words :
    ((0x0405 : Word) &&& 0xF000 = 0 ∧ (5 : Word) = ((0x0405 : Word).extractLsb' 0 9).signExtend 16 ∧
      (0x0405 : Word).extractLsb' 9 3 &&& (condZ).extractLsb' 0 3 ≠ 0 ∧
      (0x0405 : Word).extractLsb' 9 3 &&& (condP).extractLsb' 0 3 = 0) ∧
    ((0xC1C0 : Word) &&& 0xF000 = 0xC000 ∧ (0xC1C0 : Word).extractLsb' 6 3 = Reg.r7.toBits) ∧
    ((0x4C00 : Word) &&& 0xF800 = 0x4800 ∧ (0xFC00 : Word) = ((0x4C00 : Word).extractLsb' 0 11).signExtend 16) ∧
    ((0x47FF : Word) &&& 0xF800 = 0x4000 ∧ (0x47FF : Word).extractLsb' 6 3 = Reg.r7.toBits ∧
      (0x40C0 : Word).extractLsb' 6 3 = Reg.r3.toBits ∧ Reg.r3 ≠ .r7) := by decide

theorem witness_load_words :
    ((0x2100 : Word) &&& 0xF000 = 0x2000 ∧ (0x2100 : Word).extractLsb' 9 3 = Reg.r0.toBits ∧
      (0xFF00 : Word) = ((0x2100 : Word).extractLsb' 0 9).signExtend 16) ∧
    ((0xAA00 : Word) &&& 0xF000 = 0xA000 ∧ (0xAA00 : Word).extractLsb' 9 3 = Reg.r5.toBits ∧
      (0 : Word) = ((0xAA00 : Word).extractLsb' 0 9).signExtend 16) ∧
    ((0x607F : Word) &&& 0xF000 = 0x6000 ∧ (0x607F : Word).extractLsb' 9 3 = Reg.r0.toBits ∧
      (0x607F : Word).extractLsb' 6 3 = Reg.r1.toBits ∧ (0xFFFF : Word) = ((0x607F : Word).extractLsb' 0 6).signExtend 16) ∧
    ((0xE7FF : Word) &&& 0xF000 = 0xE000 ∧ (0xE7FF : Word).extractLsb' 9 3 = Reg.r3.toBits ∧
      (0xFFFF : Word) = ((0xE7FF : Word).extractLsb' 0 9).signExtend 16) := by decide

/-- LDI through KBSR: the pointer is plain and its pointee polls. -/
theorem witness_ldi_reads :
    State.memRead { State.reset with mem := [(1, 0xFE00)] } (State.reset.pc + 1) = (0xFE00, { State.reset with mem := [(1, 0xFE00)] }) ∧
    State.memRead { State.reset with mem := [(1, 0xFE00)] } 0xFE00 = (0, { State.reset with mem := [(1, 0xFE00)] }) := by decide

theorem witness_store_words :
    ((0x37FE : Word) &&& 0xF000 = 0x3000 ∧ (0x37FE : Word).extractLsb' 9 3 = Reg.r3.toBits ∧
      (0xFFFE : Word) = ((0x37FE : Word).extractLsb' 0 9).signExtend 16) ∧
    ((0xB200 : Word) &&& 0xF000 = 0xB000 ∧ (0xB200 : Word).extractLsb' 9 3 = Reg.r1.toBits ∧
      (0 : Word) = ((0xB200 : Word).extractLsb' 0 9).signExtend 16 ∧
      State.eaIndirect { State.reset with mem := [(0, 0x4000)] } 0 = (0x4000, { State.reset with mem := [(0, 0x4000)] })) ∧
    ((0x7481 : Word) &&& 0xF000 = 0x7000 ∧ (0x7481 : Word).extractLsb' 9 3 = Reg.r2.toBits ∧
      (0x7481 : Word).extractLsb' 6 3 = Reg.r2.toBits ∧ (1 : Word) = ((0x7481 : Word).extractLsb' 0 6).signExtend 16) := by decide

/-- Addresses beside KBSR, and the three answers of a poll. -/
theorem witness_poll : (0xFDFF : Word) ≠ 0xFE00 ∧ (0xFE01 : Word) ≠ 0xFE00 ∧ (0xFE02 : Word) ≠ 0xFE00 ∧
    ({ State.reset with conIn := [.byte 0xFF] } : State).conIn = .byte 0xFF :: [] ∧ State.reset.conIn = [] ∧
    (∃ rest, ({ State.reset with conIn := [.notReady] } : State).conIn = .notReady :: rest) ∧
    ({ State.reset with conIn := [.endOfStream] } : State).conIn = .endOfStream :: [] :=
  ⟨by decide, by decide, by decide, rfl, rfl, ⟨[], rfl⟩, rfl⟩

theorem witness_memory : Memory.wf ([] : Memory) = true ∧ Memory.wf [(0, 1), (65535, 1)] = true ∧
    Memory.wf (Memory.write (Memory.write [] 5 1) 6 2) = true ∧ Memory.wf (Memory.write (Memory.write [] 6 2) 5 1) = true ∧
    ∀ a : Word, Memory.read (Memory.write (Memory.write [] 5 1) 6 2) a.toNat = Memory.read (Memory.write (Memory.write [] 6 2) 5 1) a.toNat :=
  ⟨rfl, rfl, rfl, rfl, fun _ => rfl⟩

/-- ST R0, #0 and ST R0, #-1 at 0x3000. -/
theorem witness_store_fetch : (0xFE01 : Word) ≠ 0xFE00 ∧ (machine 0x3000 [] Regs.zero).engine = .running ∧
    (machine 0x3000 [] Regs.zero).inFlight = none ∧ decode (machine 0x3000 [] Regs.zero).fetch.instr = .st .r0 0 ∧
    (machine 0x3000 [] Regs.zero).pc ≠ 0xFFFF ∧ (machine 0x3000 [] Regs.zero).pc + 1 ≠ 0xFE00 ∧
    decode (machineAt 0xFFFF 0x31FF [] Regs.zero).fetch.instr = .st .r0 (-1) := by decide

/-- A read that comes at once, and one after three failed polls; and the end of the stream. -/
theorem witness_reads : State.reset.inFlight = none ∧
    ({ State.reset with conIn := [.byte 0x41] } : State).conIn = List.replicate 0 .notReady ++ .byte 0x41 :: [] ∧
    ({ State.reset with conIn := [.notReady, .notReady, .notReady, .byte 0] } : State).conIn =
      List.replicate 3 .notReady ++ .byte 0 :: [] ∧
    ({ State.reset with conIn := [.notReady, .endOfStream] } : State).conIn =
      List.replicate 1 .notReady ++ .endOfStream :: [] := ⟨rfl, rfl, rfl, rfl⟩

/-- `n` cells from `a` on that all hold `v`. -/
def filled (v : Word) : Nat → Nat → Memory
  | _, 0 => []
  | a, n + 1 => (a, v) :: filled v (a + 1) n

theorem read_filled (v : Word) (n a b : Nat) : Memory.read (filled v a n) b = if a ≤ b ∧ b < a + n then v else 0 := by
  induction n generalizing a with
  | zero => simp only [filled, Memory.read]; rw [if_neg (by omega)]
  | succ n ih =>
    simp only [filled, Memory.read, ih]
    split
    · next h => rw [if_pos (by omega)]
    · next h => by_cases hb : a + 1 ≤ b ∧ b < a + 1 + n
                · rw [if_pos hb, if_pos (by omega)]
                · rw [if_neg hb, if_neg (by omega)]

/-- Every word of memory holds `v`, and PC, R0 are 0. -/
def full (v : Word) : State := { State.reset with mem := filled v 0 65536 }

theorem full_rawRead (v a : Word) : (full v).rawRead a = v := by
  show Memory.read (filled v 0 65536) a.toNat = v
  rw [read_filled, if_pos ⟨Nat.zero_le _, by simpa using a.isLt⟩]

theorem full_fetch (v : Word) : (full v).fetch.instr = v := by
  rw [State.fetch_instr, show (full v).pc = 0 from rfl, State.memRead_plain (full v) (by decide)]
  exact full_rawRead v 0

/-- An empty string (n = 0). -/
theorem witness_puts_empty : State.reset.inFlight = none ∧ 0 < 65536 ∧
    State.reset.rawRead (State.reset.reg .r0 + BitVec.ofNat 16 0) = 0 ∧
    (State.reset.rawRead (State.reset.reg .r0 + BitVec.ofNat 16 0)).extractLsb' 0 8 = 0 := by decide

/-- The longest string (n = 65535), for PUTS and for PUTSP. -/
theorem witness_puts_longest : 65535 < 65536 ∧
    (∀ k, k < 65535 → ({ State.reset with mem := filled 0x4141 0 65535 } : State).rawRead (State.reset.reg .r0 + BitVec.ofNat 16 k) = 0x4141) ∧
    ({ State.reset with mem := filled 0x4141 0 65535 } : State).rawRead (State.reset.reg .r0 + BitVec.ofNat 16 65535) = 0 := by
  have word : ∀ k, k < 65536 → (State.reset.reg .r0 + BitVec.ofNat 16 k).toNat = k := by
    intro k hk
    rw [show State.reset.reg .r0 + BitVec.ofNat 16 k = BitVec.ofNat 16 k from BitVec.zero_add _, BitVec.toNat_ofNat]
    exact Nat.mod_eq_of_lt hk
  refine ⟨by decide, fun k hk => ?_, ?_⟩
  · show Memory.read (filled 0x4141 0 65535) _ = _
    rw [word k (by omega), read_filled, if_pos (by omega)]
  · show Memory.read (filled 0x4141 0 65535) _ = _
    rw [word 65535 (by decide), read_filled, if_neg (by omega)]

/-- V66: a string that wraps from 0xFFFF to 0x0000 (n = 1). -/
theorem witness_puts_wraps :
    (∀ k, k < 1 → (machine 0xF022 [(0xFFFF, 0x0041)] { Regs.zero with r0 := 0xFFFF }).rawRead (0xFFFF + BitVec.ofNat 16 k) ≠ 0) ∧
    (machine 0xF022 [(0xFFFF, 0x0041)] { Regs.zero with r0 := 0xFFFF }).rawRead (0xFFFF + BitVec.ofNat 16 1) = 0 := by decide

/-- Vectors on both sides of the table. -/
theorem witness_undefined_vector : (0xF01F : Word) &&& 0xF000 = 0xF000 ∧ (0x1F : Byte) = (0xF01F : Word).extractLsb' 0 8 ∧
    (0x1F : Byte).toNat < 0x20 ∧ (0xFF26 : Word) &&& 0xF000 = 0xF000 ∧ (0x26 : Byte) = (0xFF26 : Word).extractLsb' 0 8 ∧
    0x25 < (0x26 : Byte).toNat := by decide

/-- GETC with an empty stream, IN after two failed polls. -/
theorem witness_waits : (machine 0xF020 [] Regs.zero).engine = .running ∧ (machine 0xF020 [] Regs.zero).inFlight = none ∧
    decode (machine 0xF020 [] Regs.zero).fetch.instr = .trap 0x20 ∧
    (machine 0xF020 [] Regs.zero).conIn = List.replicate 0 .notReady ∧
    decode (State.fetch { machine 0xF023 [] Regs.zero with conIn := [.notReady, .notReady] }).instr = .trap 0x23 ∧
    ({ machine 0xF023 [] Regs.zero with conIn := [.notReady, .notReady] } : State).conIn = List.replicate 2 .notReady := by decide

/-- GETC and IN waiting, fetched from 0x3000 and from 0xFFFF. -/
theorem witness_woken : (waiting 0x3000 .getc []).engine = .running ∧ (waiting 0x3000 .getc []).inFlight = some .getc ∧
    (waiting 0x3000 .inRead []).inFlight = some .inRead ∧ (waiting 0x3000 .inRead []).conIn = [] ∧
    (waiting 0x3000 .inRead []).pc0 ≠ 0xFFFF ∧ (waiting 0xFFFF .getc []).pc0 = 0xFFFF ∧
    (waiting 0xFFFF .getc []).engine = .running ∧ (waiting 0xFFFF .getc []).conIn = [] := by decide

/-- Memory full of PUTS instructions. -/
theorem witness_puts_never_ends : (full 0xF022).engine = .running ∧ (full 0xF022).inFlight = none ∧
    decode (full 0xF022).fetch.instr = .trap 0x22 ∧ ∀ a, (full 0xF022).rawRead a ≠ 0 := by
  refine ⟨rfl, rfl, ?_, fun a => ?_⟩
  · rw [full_fetch]; decide
  · rw [full_rawRead]; decide

/-- Memory full of PUTSP instructions. -/
theorem witness_putsp_never_ends : (full 0xF024).engine = .running ∧ (full 0xF024).inFlight = none ∧
    decode (full 0xF024).fetch.instr = .trap 0x24 ∧ ∀ a, ((full 0xF024).rawRead a).extractLsb' 0 8 ≠ 0 := by
  refine ⟨rfl, rfl, ?_, fun a => ?_⟩
  · rw [full_fetch]; decide
  · rw [full_rawRead]; decide

/-- A step that halts by HALT, one that aborts and one that overflows. -/
theorem witness_engine_stops : after State.engine (machine 0xF025 [] Regs.zero) = some (.halted .haltTrap) ∧
    after State.engine (machine 0x8000 [] Regs.zero) = some (.aborted .reservedOpcode 0x3000 0x8000) ∧
    after State.engine (machineAt 0xFFFF 0x1042 [] Regs.zero) = some (.halted .pcOverflow) := by decide

/-- ADD R0, R1, R2 executes, leaves R3 to its writers, writes COND and leaves PC at PCinc; OUT does not write COND. -/
theorem witness_exec : exec (.addReg .r0 .r1 .r2) State.reset = .next (State.reset.writeResult .r0 0) ∧
    Reg.r3 ∉ regsWritten (.addReg .r0 .r1 .r2) ∧ condWritten (.addReg .r0 .r1 .r2) = true ∧
    State.reset.pcAfter (.addReg .r0 .r1 .r2) = some 0x0000 ∧
    exec (.trap 0x21) State.reset = .next (State.reset.conWrite 0) ∧ condWritten (.trap 0x21) = false ∧
    condOneFlag State.reset.cond := ⟨rfl, by decide, rfl, rfl, rfl, rfl, .inr (.inr rfl)⟩

/-- A branch taken and one not taken, as R26 leaves their PC. -/
theorem witness_pc_after : State.reset.pcAfter (.br false false true 5) = some 5 ∧
    State.reset.pcAfter (.br true false false 5) = some 0 ∧ State.reset.pcAfter (.trap 0x25) = some 0 := by decide

/-- ST R0, #1 leaves address 0 alone; no instruction here reads 0xFE00. -/
theorem witness_memory_changes : exec (.st .r0 1) State.reset = .next (State.reset.memWrite 1 0) ∧
    State.reset.memWrites (.st .r0 1) ≠ some 0 ∧ State.reset.memWrites (.st .r0 1) ≠ some 0xFE02 ∧
    0xFE00 ∉ State.reset.memReads (.st .r0 1) ∧ 0xFE00 ∉ State.reset.memReads (.ldi .r0 0) :=
  ⟨rfl, by decide, by decide, by decide, by decide⟩

theorem witness_no_input_seen : 0xFE00 ∉ State.reset.memReads (.trap 0x21) ∧ Instr.trap 0x21 ≠ .trap 0x20 ∧
    Instr.trap 0x21 ≠ .trap 0x23 ∧ exec (.trap 0x21) State.reset = .next (State.reset.conWrite 0) :=
  ⟨by decide, by decide, by decide, rfl⟩

end Sys2Proof.Tests
end

section
/-! R8 of 00_scope.md: sign extension in both of the rule's forms, for every width up to 16. -/

namespace Sys2Proof

/-- The mask `0xFFFF - (2^n - 1)` of R8 is 1 exactly at the bits above an `n`-bit field. -/
theorem getLsbD_upperMask {n k : Nat} (hn : n ≤ 16) (hk : k < 16) :
    (BitVec.ofNat 16 (0xFFFF - (2 ^ n - 1))).getLsbD k = !decide (k < n) := by
  have hpow : 2 ^ n ≤ 2 ^ 16 := Nat.pow_le_pow_right (by decide) hn
  have hlt : 2 ^ n - 1 < 2 ^ 16 := Nat.lt_of_lt_of_le (Nat.sub_lt (Nat.two_pow_pos n) Nat.one_pos) hpow
  have hmask : 0xFFFF - (2 ^ n - 1) = 2 ^ 16 - ((2 ^ n - 1) + 1) := by omega
  rw [BitVec.getLsbD_ofNat, hmask, Nat.testBit_two_pow_sub_succ hlt, Nat.testBit_two_pow_sub_one]
  simp [hk]

/-- R8, first form, top bit 0: the field itself. -/
theorem sext_of_msb_false {n : Nat} {v : BitVec n} (h : v.msb = false) : sext v = v.setWidth 16 :=
  BitVec.signExtend_eq_setWidth_of_msb_false h

/-- R8, first form, top bit 1: the upper bits filled with 1s. -/
theorem sext_of_msb_true {n : Nat} {v : BitVec n} (hn : n ≤ 16) (h : v.msb = true) :
    sext v = v.setWidth 16 ||| BitVec.ofNat 16 (0xFFFF - (2 ^ n - 1)) := by
  apply BitVec.eq_of_getLsbD_eq
  intro k hk
  rw [BitVec.getLsbD_or, getLsbD_upperMask hn hk, sext, BitVec.getLsbD_signExtend, BitVec.getLsbD_setWidth]
  by_cases hin : k < n
  · simp [hk, hin]
  · simp [hk, hin, h]

/-- R8, second form: with the top bit 1, the value is `v - 2^n` modulo 2^16. -/
theorem toNat_sext_of_msb_true {n : Nat} {v : BitVec n} (hn : n ≤ 16) (h : v.msb = true) :
    ((sext v).toNat : Int) = ((v.toNat : Int) - 2 ^ n) % 2 ^ 16 := by
  have hv : v.toInt = (v.toNat : Int) - 2 ^ n := by simp [BitVec.toInt_eq_msb_cond, h]
  have hs : (sext v).toInt = v.toInt := BitVec.toInt_signExtend_of_le hn
  calc ((sext v).toNat : Int)
      _ = ((sext v).toNat : Int) % 2 ^ 16 := (Int.emod_eq_of_lt (by positivity) (mod_cast (sext v).isLt)).symm
      _ = (sext v).toInt % 2 ^ 16 := by rw [BitVec.toInt_eq_toNat_bmod]; exact (Int.bmod_emod ..).symm
      _ = ((v.toNat : Int) - 2 ^ n) % 2 ^ 16 := by rw [hs, hv]

/-- Settles O15: each of the four widths is at most 16, and bit N-1 of a field is its most significant bit. -/
theorem signExtensionIsBothFormulas : Obligations.SignExtensionIsBothFormulas := by
  intro n hwidth v
  have hn : n ≤ 16 := by omega
  rw [← BitVec.msb_eq_getLsbD_last]
  exact ⟨sext_of_msb_false, fun h => ⟨sext_of_msb_true hn h, toNat_sext_of_msb_true hn h⟩⟩

end Sys2Proof
end

section
/-! Writing a result (40_operate.md R80): how every flag-updating instruction ends, with its frame. -/

namespace Sys2Proof.Machine

/-- The flag logic gives COND as R80 states it. -/
theorem flagsAre_flagsOf (v : Word) : flagsAre v (flagsOf v) := by
  obtain ⟨rfl, h⟩ | ⟨hv, hneg, h⟩ | ⟨hv, hpos, h⟩ := flagsOf_cases v
  · exact ⟨fun _ => h, fun hneg => absurd hneg (by decide), fun h0 => absurd rfl h0⟩
  · exact ⟨fun h0 => absurd h0 hv, fun _ => h, fun _ hpos => absurd (hneg.symm.trans hpos) (by decide)⟩
  · exact ⟨fun h0 => absurd h0 hv, fun hneg => absurd (hneg.symm.trans hpos) (by decide), fun _ _ => h⟩

/-- `x[DR] <- v; setcc(v)` writes DR and COND, whatever register DR is (R80). -/
theorem State.writesResult_writeResult (s : State) (dr : Reg) (v : Word) : writesResult dr v s (s.writeResult dr v) :=
  ⟨s.reg_setReg_same dr v, fun _ h => s.reg_setReg_other v h, flagsAre_flagsOf v⟩

/-- An instruction that ends by writing its result, and does nothing else, changes DR and COND and keeps all the rest. -/
theorem exec_result_of_writeResult {i : Instr} {s : State} {dr : Reg} {v : Word}
    (h : exec i s = .next (s.writeResult dr v)) :
    ∃ t, exec i s = .next t ∧ writesResult dr v s t ∧ t.pc = s.pc ∧
      keepsMemory s t ∧ keepsConsole s t ∧ keepsControl s t :=
  ⟨_, h, s.writesResult_writeResult dr v, s.writeResult_pc dr v, State.rawRead_congr (s.writeResult_mem dr v),
    ⟨rfl, rfl, rfl⟩, ⟨rfl, rfl, rfl, rfl, rfl⟩⟩

end Sys2Proof.Machine
end

section
/-! The operate family's words (40_operate.md R81 to R85): the fields a word of each row decodes to. -/

namespace Sys2Proof

/-- DR is the register that instr[11:9] numbers (R62, R63). -/
theorem fieldDR_of_bits {w : Word} {r : Reg} (h : w.extractLsb' 9 3 = r.toBits) : fieldDR w = r := Reg.ofBits_of_eq h

/-- SR1 is the register that instr[8:6] numbers (R62, R63). -/
theorem fieldSR1_of_bits {w : Word} {r : Reg} (h : w.extractLsb' 6 3 = r.toBits) : fieldSR1 w = r := Reg.ofBits_of_eq h

/-- SR2 is the register that instr[2:0] numbers (R62, R63). -/
theorem fieldSR2_of_bits {w : Word} {r : Reg} (h : w.extractLsb' 0 3 = r.toBits) : fieldSR2 w = r := Reg.ofBits_of_eq h

/-- The mask of ADD and AND fixes instr[15:12] and the mode bit instr[5]. -/
theorem opcode_mode_of_mask {w v : Word} (h : w &&& 0xF020 = v) :
    bits w 12 4 = bits v 12 4 ∧ w.getLsbD 5 = v.getLsbD 5 :=
  ⟨opcode_of_mask h (by decide), getLsbD_of_mask h 5 (by decide)⟩

section
variable {w : Word} {dr sr1 : Reg} (hdr : w.extractLsb' 9 3 = dr.toBits) (hsr1 : w.extractLsb' 6 3 = sr1.toBits)
include hdr hsr1

theorem decode_addReg {sr2 : Reg} (h : w &&& 0xF020 = 0x1000) (hsr2 : w.extractLsb' 0 3 = sr2.toBits) :
    decode w = .addReg dr sr1 sr2 := by
  obtain ⟨hop, hmode⟩ := opcode_mode_of_mask h
  rw [decode_of_opcode (o := .add) hop, fieldDR_of_bits hdr, fieldSR1_of_bits hsr1, fieldSR2_of_bits hsr2]
  exact if_neg (by rw [hmode]; decide)

theorem decode_addImm (h : w &&& 0xF020 = 0x1020) : decode w = .addImm dr sr1 (fieldImm5 w) := by
  obtain ⟨hop, hmode⟩ := opcode_mode_of_mask h
  rw [decode_of_opcode (o := .add) hop, fieldDR_of_bits hdr, fieldSR1_of_bits hsr1]
  exact if_pos hmode

theorem decode_andReg {sr2 : Reg} (h : w &&& 0xF020 = 0x5000) (hsr2 : w.extractLsb' 0 3 = sr2.toBits) :
    decode w = .andReg dr sr1 sr2 := by
  obtain ⟨hop, hmode⟩ := opcode_mode_of_mask h
  rw [decode_of_opcode (o := .and) hop, fieldDR_of_bits hdr, fieldSR1_of_bits hsr1, fieldSR2_of_bits hsr2]
  exact if_neg (by rw [hmode]; decide)

theorem decode_andImm (h : w &&& 0xF020 = 0x5020) : decode w = .andImm dr sr1 (fieldImm5 w) := by
  obtain ⟨hop, hmode⟩ := opcode_mode_of_mask h
  rw [decode_of_opcode (o := .and) hop, fieldDR_of_bits hdr, fieldSR1_of_bits hsr1]
  exact if_pos hmode

theorem decode_not (h : w &&& 0xF000 = 0x9000) : decode w = .not dr sr1 := by
  have hop : bits w 12 4 = Opcode.not.toBits := opcode_of_mask h (by decide)
  rw [decode_of_opcode hop, fieldDR_of_bits hdr, fieldSR1_of_bits hsr1]

end

end Sys2Proof
end

section
/-! The operate family's results (40_operate.md R81 to R85). -/

namespace Sys2Proof.Machine

theorem exec_addReg (dr sr1 sr2 : Reg) (s : State) :
    exec (.addReg dr sr1 sr2) s = .next (s.writeResult dr (s.reg sr1 + s.reg sr2)) := rfl

theorem exec_addImm (dr sr1 : Reg) (imm : Word) (s : State) :
    exec (.addImm dr sr1 imm) s = .next (s.writeResult dr (s.reg sr1 + imm)) := rfl

theorem exec_andReg (dr sr1 sr2 : Reg) (s : State) :
    exec (.andReg dr sr1 sr2) s = .next (s.writeResult dr (s.reg sr1 &&& s.reg sr2)) := rfl

theorem exec_andImm (dr sr1 : Reg) (imm : Word) (s : State) :
    exec (.andImm dr sr1 imm) s = .next (s.writeResult dr (s.reg sr1 &&& imm)) := rfl

theorem exec_not (dr sr : Reg) (s : State) : exec (.not dr sr) s = .next (s.writeResult dr (~~~ s.reg sr)) := rfl

/-- The rules' sum modulo 2^16 (R7) is the addition of words. -/
theorem Word.ofNat_sum_mod (a b : Word) : BitVec.ofNat 16 ((a.toNat + b.toNat) % 65536) = a + b := by
  apply BitVec.eq_of_toNat_eq
  rw [BitVec.toNat_ofNat, BitVec.toNat_add, Nat.mod_mod]

/-- R85's complement is a subtraction from 0xFFFF. -/
theorem Word.ones_sub (a : Word) : 0xFFFF - a = ~~~a := BitVec.allOnes_sub_eq_not a

/-- Settles O18: the sum of the old values is written as the instruction's result. -/
theorem addRegisterModeResult : Obligations.AddRegisterModeResult := by
  intro w dr sr1 sr2 s hrow hdr hsr1 hsr2
  rw [Word.ofNat_sum_mod]
  exact ⟨decode_addReg hdr hsr1 hrow hsr2, exec_result_of_writeResult (exec_addReg dr sr1 sr2 s)⟩

/-- Settles O19: `imm` is the word's widened imm5, and the sum with it is written as the instruction's result. -/
theorem addImmediateModeResult : Obligations.AddImmediateModeResult := by
  rintro w imm dr sr1 s hrow hdr hsr1 rfl
  rw [Word.ofNat_sum_mod]
  exact ⟨decode_addImm hdr hsr1 hrow, exec_result_of_writeResult (exec_addImm dr sr1 _ s)⟩

/-- Settles O20: the AND of the old values is written as the instruction's result. -/
theorem andRegisterModeResult : Obligations.AndRegisterModeResult := by
  intro w dr sr1 sr2 s hrow hdr hsr1 hsr2
  exact ⟨decode_andReg hdr hsr1 hrow hsr2, exec_result_of_writeResult (exec_andReg dr sr1 sr2 s)⟩

/-- Settles O21: `imm` is the word's widened imm5, and the AND with it is written as the instruction's result. -/
theorem andImmediateModeResult : Obligations.AndImmediateModeResult := by
  rintro w imm dr sr1 s hrow hdr hsr1 rfl
  exact ⟨decode_andImm hdr hsr1 hrow, exec_result_of_writeResult (exec_andImm dr sr1 _ s)⟩

/-- Settles O22: the subtraction from 0xFFFF is the complement, written as the instruction's result. -/
theorem notResult : Obligations.NotResult := by
  intro w dr sr s hrow hdr hsr
  rw [Word.ones_sub]
  exact ⟨decode_not hdr hsr hrow, exec_result_of_writeResult (exec_not dr sr s)⟩

end Sys2Proof.Machine
end

section
/-! The control family's words (41_control.md R101, R103, R106): the fields a word of each row decodes to. -/

namespace Sys2Proof

theorem decode_br {w : Word} (h : w &&& 0xF000 = 0x0000) :
    decode w = .br (w.getLsbD 11) (w.getLsbD 10) (w.getLsbD 9) (fieldOffset9 w) := by
  have hop : bits w 12 4 = Opcode.br.toBits := opcode_of_mask h (by decide)
  rw [decode_of_opcode hop]

theorem decode_jmp {w : Word} {base : Reg} (h : w &&& 0xF000 = 0xC000) (hbase : w.extractLsb' 6 3 = base.toBits) :
    decode w = .jmp base := by
  have hop : bits w 12 4 = Opcode.jmp.toBits := opcode_of_mask h (by decide)
  rw [decode_of_opcode hop, fieldSR1_of_bits hbase]

theorem decode_jsr {w : Word} (h : w &&& 0xF800 = 0x4800) : decode w = .jsr (fieldOffset11 w) := by
  have hop : bits w 12 4 = Opcode.jsr.toBits := opcode_of_mask h (by decide)
  have hmode : w.getLsbD 11 = true := getLsbD_of_mask h 11 (by decide)
  rw [decode_of_opcode hop]
  exact if_pos hmode

/-- BR's enable bits n, z and p, high bit first, are the field instr[11:9] (R66). -/
theorem enableBits_eq_field (w : Word) :
    BitVec.ofBool (w.getLsbD 11) ++ BitVec.ofBool (w.getLsbD 10) ++ BitVec.ofBool (w.getLsbD 9) = w.extractLsb' 9 3 := by
  apply BitVec.eq_of_getLsbD_eq
  intro k hk
  interval_cases k <;> simp only [BitVec.getLsbD_append, BitVec.getLsbD_ofBool, BitVec.getLsbD_extractLsb'] <;> rfl

end Sys2Proof
end

section
/-! The control family's results (41_control.md R101, R103, R106). -/

namespace Sys2Proof.Machine

/-- BR writes PC in either case: a branch not taken leaves PCinc there. -/
theorem exec_br (n z p : Bool) (off : Word) (s : State) :
    exec (.br n z p off) s = .next (s.setPc (if branchTaken n z p s.cond then s.pc + off else s.pc)) :=
  congrArg Host.Outcome.next (apply_ite s.setPc _ (s.pc + off) s.pc).symm

theorem exec_jmp (base : Reg) (s : State) : exec (.jmp base) s = .next (s.setPc (s.reg base)) := rfl

theorem exec_jsr (off : Word) (s : State) : exec (.jsr off) s = .next (s.link.setPc (s.pc + off)) := rfl

/-- R100's test on the word itself: `(instr[11:9] & cond[2:0]) != 0`. -/
theorem branchTaken_iff_field (w cond : Word) :
    branchTaken (w.getLsbD 11) (w.getLsbD 10) (w.getLsbD 9) cond = true ↔
      w.extractLsb' 9 3 &&& cond.extractLsb' 0 3 ≠ 0 := by
  rw [branchTaken_eq_branchBits, branchBits, enableBits_eq_field]
  exact bne_iff_ne

/-- Setting PC keeps all the rest. -/
theorem State.setPc_frame (s : State) (v : Word) :
    keepsRegs s (s.setPc v) ∧ (s.setPc v).cond = s.cond ∧ keepsMemory s (s.setPc v) ∧ keepsConsole s (s.setPc v) ∧
      keepsControl s (s.setPc v) :=
  ⟨State.reg_congr (s.setPc_regs v), s.setPc_cond v, State.rawRead_congr (s.setPc_mem v), ⟨rfl, rfl, rfl⟩,
    ⟨rfl, rfl, rfl, rfl, rfl⟩⟩

/-- The link and the jump of JSR and JSRR write R7 and PC and keep all the rest (R106, R107). -/
theorem State.link_setPc_frame (s : State) (v : Word) :
    (s.link.setPc v).reg .r7 = s.pc ∧ (s.link.setPc v).pc = v ∧ keepsRegsBut .r7 s (s.link.setPc v) ∧
      (s.link.setPc v).cond = s.cond ∧ keepsMemory s (s.link.setPc v) ∧ keepsConsole s (s.link.setPc v) ∧
      keepsControl s (s.link.setPc v) := by
  obtain ⟨hregs, hcond, hmem, hconsole, hcontrol⟩ := s.link.setPc_frame v
  exact ⟨(hregs .r7).trans (s.reg_setReg_same .r7 s.pc), rfl,
    fun r hr => (hregs r).trans (s.reg_setReg_other s.pc hr), hcond, hmem, hconsole, hcontrol⟩

/-- Settles O23: PC takes the target or stays PCinc by R100's test on the word, and nothing else is written. -/
theorem branchTakenOrFallsThrough : Obligations.BranchTakenOrFallsThrough := by
  rintro w off s hrow rfl
  refine ⟨decode_br hrow, _, exec_br .., fun htaken => ?_, fun hzero => ?_, s.setPc_frame _⟩
  · exact if_pos ((branchTaken_iff_field w s.cond).2 htaken)
  · exact if_neg fun htaken => (branchTaken_iff_field w s.cond).1 htaken hzero

/-- Settles O25: JMP sets PC to its base register, and nothing else is written. -/
theorem jumpSetsPc : Obligations.JumpSetsPc := by
  intro w base s hrow hbase
  exact ⟨decode_jmp hrow hbase, _, exec_jmp base s, rfl, s.setPc_frame (s.reg base)⟩

/-- Settles O26: the link and then the jump to `PCinc + sext_11(offset11)`. -/
theorem jsrLinksAndJumps : Obligations.JsrLinksAndJumps := by
  rintro w off s hrow rfl
  exact ⟨decode_jsr hrow, _, exec_jsr _ s, s.link_setPc_frame _⟩

end Sys2Proof.Machine
end

section
/-! The load family's words (42_load.md R121 to R124): the fields a word of each row decodes to. -/

namespace Sys2Proof

section
variable {w : Word} {dr : Reg} (hdr : w.extractLsb' 9 3 = dr.toBits)
include hdr

theorem decode_ld (h : w &&& 0xF000 = 0x2000) : decode w = .ld dr (fieldOffset9 w) := by
  have hop : bits w 12 4 = Opcode.ld.toBits := opcode_of_mask h (by decide)
  rw [decode_of_opcode hop, fieldDR_of_bits hdr]

theorem decode_ldi (h : w &&& 0xF000 = 0xA000) : decode w = .ldi dr (fieldOffset9 w) := by
  have hop : bits w 12 4 = Opcode.ldi.toBits := opcode_of_mask h (by decide)
  rw [decode_of_opcode hop, fieldDR_of_bits hdr]

theorem decode_ldr {base : Reg} (h : w &&& 0xF000 = 0x6000) (hbase : w.extractLsb' 6 3 = base.toBits) :
    decode w = .ldr dr base (fieldOffset6 w) := by
  have hop : bits w 12 4 = Opcode.ldr.toBits := opcode_of_mask h (by decide)
  rw [decode_of_opcode hop, fieldDR_of_bits hdr, fieldSR1_of_bits hbase]

theorem decode_lea (h : w &&& 0xF000 = 0xE000) : decode w = .lea dr (fieldOffset9 w) := by
  have hop : bits w 12 4 = Opcode.lea.toBits := opcode_of_mask h (by decide)
  rw [decode_of_opcode hop, fieldDR_of_bits hdr]

end

end Sys2Proof
end

section
/-! What a MemRead leaves unchanged (20_memory.md R43), as one relation that dependent reads compose by. -/

namespace Sys2Proof.Machine

/-- Registers, COND, PC and the control state are unchanged; memory and the console may differ, as after a poll (R43). -/
def keepsProcessor (s t : State) : Prop :=
  keepsRegs s t ∧ t.cond = s.cond ∧ t.pc = s.pc ∧ keepsControl s t

theorem keepsControl.trans {s t u : State} (hst : keepsControl s t) (htu : keepsControl t u) : keepsControl s u := by
  obtain ⟨he, hf, h0, hi, hm⟩ := hst
  obtain ⟨he', hf', h0', hi', hm'⟩ := htu
  exact ⟨he'.trans he, hf'.trans hf, h0'.trans h0, hi'.trans hi, hm'.trans hm⟩

theorem keepsProcessor.trans {s t u : State} (hst : keepsProcessor s t) (htu : keepsProcessor t u) :
    keepsProcessor s u := by
  obtain ⟨hregs, hcond, hpc, hcontrol⟩ := hst
  obtain ⟨hregs', hcond', hpc', hcontrol'⟩ := htu
  exact ⟨fun r => (hregs' r).trans (hregs r), hcond'.trans hcond, hpc'.trans hpc, hcontrol.trans hcontrol'⟩

/-- A read touches memory and the console only, whatever its address. -/
theorem State.memRead_keepsProcessor {s t : State} {a v : Word} (h : s.memRead a = (v, t)) : keepsProcessor s t := by
  obtain ⟨hregs, hpc, hcond, he, h0, hi, hf, -, hm, -⟩ := s.memRead_frame a
  rw [h] at hregs hpc hcond he h0 hi hf hm
  exact ⟨State.reg_congr hregs, hcond, hpc, he, hf, h0, hi, hm⟩

end Sys2Proof.Machine
end

section
/-! The load family's results (42_load.md R121 to R124). -/

namespace Sys2Proof.Machine

theorem exec_ld (dr : Reg) (off : Word) (s : State) : exec (.ld dr off) s = .next (s.loadFrom dr (s.pc + off)) := rfl

theorem exec_ldi (dr : Reg) (off : Word) (s : State) :
    exec (.ldi dr off) s = .next ((s.memRead (s.pc + off)).2.loadFrom dr (s.memRead (s.pc + off)).1) := rfl

theorem exec_ldr (dr base : Reg) (off : Word) (s : State) :
    exec (.ldr dr base off) s = .next (s.loadFrom dr (s.reg base + off)) := rfl

theorem exec_lea (dr : Reg) (off : Word) (s : State) : exec (.lea dr off) s = .next (s.writeResult dr (s.pc + off)) := rfl

/-- A load writes the word it reads into the state the read leaves. -/
theorem State.loadFrom_of_memRead {s t : State} {a v : Word} (dr : Reg) (h : s.memRead a = (v, t)) :
    s.loadFrom dr a = t.writeResult dr v := by
  rw [State.loadFrom, h]

/-- An instruction that only reads memory and then writes its result changes DR and COND; memory and the console are as
the reads left them. -/
theorem exec_result_after_reads {i : Instr} {s t : State} {dr : Reg} {v : Word}
    (h : exec i s = .next (t.writeResult dr v)) (hread : keepsProcessor s t) :
    ∃ t', exec i s = .next t' ∧ writesResult dr v s t' ∧ t'.pc = s.pc ∧
      keepsMemory t t' ∧ keepsConsole t t' ∧ keepsControl s t' := by
  obtain ⟨hregs, -, hpc, hcontrol⟩ := hread
  obtain ⟨hdr, hother, hflags⟩ := t.writesResult_writeResult dr v
  exact ⟨_, h, ⟨hdr, fun r hr => (hother r hr).trans (hregs r), hflags⟩, hpc, fun _ => rfl, ⟨rfl, rfl, rfl⟩, hcontrol⟩

/-- Settles O28: one read at `PCinc + sext_9(offset9)`, and its word is written as the instruction's result. -/
theorem ldResult : Obligations.LdResult := by
  rintro w off dr s hrow hdr rfl
  exact ⟨decode_ld hdr hrow, exec_result_after_reads (exec_ld dr _ s) (State.memRead_keepsProcessor rfl)⟩

/-- Settles O29: the pointer's read and then its pointee's, each of which keeps the processor's state. -/
theorem ldiResult : Obligations.LdiResult := by
  rintro w off dr s u v pointer value hrow hdr rfl hpointer hvalue
  have hexec : exec (.ldi dr ((w.extractLsb' 0 9).signExtend 16)) s = .next (v.writeResult dr value) := by
    rw [exec_ldi, hpointer, State.loadFrom_of_memRead dr hvalue]
  have hreads : keepsProcessor s v :=
    (State.memRead_keepsProcessor hpointer).trans (State.memRead_keepsProcessor hvalue)
  exact ⟨decode_ldi hdr hrow, exec_result_after_reads hexec hreads⟩

/-- Settles O30: the address is taken from the old base, before DR is written, so DR = BaseR needs no case of its own. -/
theorem ldrResult : Obligations.LdrResult := by
  rintro w off dr base s hrow hdr hbase rfl
  exact ⟨decode_ldr hdr hrow hbase, exec_result_after_reads (exec_ldr dr base _ s) (State.memRead_keepsProcessor rfl)⟩

/-- Settles O31: the address itself is written as the instruction's result, and nothing is read. -/
theorem leaResult : Obligations.LeaResult := by
  rintro w off dr s hrow hdr rfl
  rw [Word.ofNat_sum_mod]
  exact ⟨decode_lea hdr hrow, exec_result_of_writeResult (exec_lea dr _ s)⟩

end Sys2Proof.Machine
end

section
/-! The store family's words (43_store.md R140 to R142): the fields a word of each row decodes to. SR stands where DR does,
in instr[11:9] (R62). -/

namespace Sys2Proof

section
variable {w : Word} {sr : Reg} (hsr : w.extractLsb' 9 3 = sr.toBits)
include hsr

theorem decode_st (h : w &&& 0xF000 = 0x3000) : decode w = .st sr (fieldOffset9 w) := by
  have hop : bits w 12 4 = Opcode.st.toBits := opcode_of_mask h (by decide)
  rw [decode_of_opcode hop, fieldDR_of_bits hsr]

theorem decode_sti (h : w &&& 0xF000 = 0xB000) : decode w = .sti sr (fieldOffset9 w) := by
  have hop : bits w 12 4 = Opcode.sti.toBits := opcode_of_mask h (by decide)
  rw [decode_of_opcode hop, fieldDR_of_bits hsr]

theorem decode_str {base : Reg} (h : w &&& 0xF000 = 0x7000) (hbase : w.extractLsb' 6 3 = base.toBits) :
    decode w = .str sr base (fieldOffset6 w) := by
  have hop : bits w 12 4 = Opcode.str.toBits := opcode_of_mask h (by decide)
  rw [decode_of_opcode hop, fieldDR_of_bits hsr, fieldSR1_of_bits hbase]

end

end Sys2Proof
end

section
/-! The store family's results (43_store.md R140 to R142). -/

namespace Sys2Proof.Machine

theorem exec_st (sr : Reg) (off : Word) (s : State) :
    exec (.st sr off) s = .next (s.memWrite (s.eaPcRelative off) (s.reg sr)) := rfl

theorem exec_sti (sr : Reg) (off : Word) (s : State) :
    exec (.sti sr off) s = .next ((s.eaIndirect off).2.memWrite (s.eaIndirect off).1 (s.reg sr)) := rfl

theorem exec_str (sr base : Reg) (off : Word) (s : State) :
    exec (.str sr base off) s = .next (s.memWrite (s.eaBaseOffset base off) (s.reg sr)) := rfl

/-- Where no read precedes the write, the state before it is `s` itself. -/
theorem keepsProcessor.refl (s : State) : keepsProcessor s s :=
  ⟨fun _ => rfl, rfl, rfl, rfl, rfl, rfl, rfl, rfl⟩

/-- `t` is `u` with the word at `a` written: every other word and the console are `u`'s, and the processor's state is
`s`'s. -/
def storesWord (a v : Word) (s u t : State) : Prop :=
  t.rawRead a = v ∧ keepsMemoryBut a u t ∧ keepsRegs s t ∧ t.cond = s.cond ∧ t.pc = s.pc ∧ keepsConsole u t ∧
    keepsControl s t

/-- A MemWrite changes the word at its address and nothing else (R46), so after reads it keeps the processor's state. -/
theorem State.storesWord_memWrite {s u : State} (a v : Word) (hread : keepsProcessor s u) :
    storesWord a v s u (u.memWrite a v) := by
  obtain ⟨hregs, hcond, hpc, hcontrol⟩ := hread
  exact ⟨u.rawRead_memWrite_same a v, fun _ hb => u.rawRead_memWrite_other v hb, hregs, hcond, hpc, ⟨rfl, rfl, rfl⟩,
    hcontrol⟩

/-- Settles O32: nothing is read, and x[SR] is written at `PCinc + sext_9(offset9)`. -/
theorem stResult : Obligations.StResult := by
  rintro w off sr s hrow hsr rfl
  obtain ⟨hword, hother, hkept⟩ := State.storesWord_memWrite (s.eaPcRelative _) (s.reg sr) (keepsProcessor.refl s)
  exact ⟨decode_st hsr hrow, _, exec_st sr _ s, hword, hother, rfl, hkept⟩

/-- Settles O33: the pointer's read keeps the processor's state, and x[SR] is written where it points, in the state the
read leaves. -/
theorem stiResult : Obligations.StiResult := by
  rintro w off sr s u pointer hrow hsr rfl hpointer
  have hexec : exec (.sti sr ((w.extractLsb' 0 9).signExtend 16)) s = .next (u.memWrite pointer (s.reg sr)) := by
    rw [exec_sti, hpointer]
  exact ⟨decode_sti hsr hrow, hpointer, _, hexec,
    State.storesWord_memWrite pointer (s.reg sr) (State.memRead_keepsProcessor hpointer)⟩

/-- Settles O34: nothing is read, and x[SR] is written at `x[BaseR] + sext_6(offset6)`. -/
theorem strResult : Obligations.StrResult := by
  rintro w off sr base s hrow hsr hbase rfl
  obtain ⟨hword, hother, hkept⟩ := State.storesWord_memWrite (s.eaBaseOffset base _) (s.reg sr) (keepsProcessor.refl s)
  exact ⟨decode_str hsr hrow hbase, _, exec_str sr base _ s, hword, hother, rfl, hkept⟩

end Sys2Proof.Machine
end

section
/-! TRAP's dispatch (44_trap.md R160) and OUT (R162). -/

namespace Sys2Proof.Machine

/-- TRAP is the dispatcher on the state itself: at `TRAP_LINK_R7`'s default no link is written first (R168). -/
theorem exec_trap (v : Byte) (s : State) : exec (.trap v) s = .next (s.dispatchTrap v) := rfl

/-- A vector of R160's table is answered by its service. -/
theorem exec_trap_of_vector {v : Byte} {sv : Service} (s : State) (h : Service.ofVector v = some sv) :
    exec (.trap v) s = .next (s.serve sv) := by
  rw [exec_trap, State.dispatchTrap, h]

theorem lowByte_eq_ofNat_mod (w : Word) : lowByte w = BitVec.ofNat 8 (w.toNat % 256) := by
  apply BitVec.eq_of_toNat_eq
  simp [lowByte]

theorem State.serve_out (s : State) : s.serve .out = s.conWrite (BitVec.ofNat 8 ((s.reg .r0).toNat % 256)) := by
  rw [← lowByte_eq_ofNat_mod, State.serve]

/-- A ConWrite keeps the processor's state: only the console output changes. -/
theorem State.conWrite_keepsProcessor (s : State) (b : Byte) : keepsProcessor s (s.conWrite b) :=
  keepsProcessor.refl s

/-- Settles O42: vector x21 is OUT, and OUT is one ConWrite of R0's low byte. -/
theorem outWritesLowByteOfR0 : Obligations.OutWritesLowByteOfR0 := by
  intro s
  have hout : exec (.trap 0x21) s = .next (s.conWrite (BitVec.ofNat 8 ((s.reg .r0).toNat % 256))) := by
    rw [exec_trap_of_vector s (sv := .out) (by decide), s.serve_out]
  obtain ⟨hregs, hcond, hpc, hcontrol⟩ := s.conWrite_keepsProcessor (BitVec.ofNat 8 ((s.reg .r0).toNat % 256))
  exact ⟨_, hout, s.conWrite_conOut _, s.conWrite_conIn _, s.conWrite_draws _, hregs, hcond, hpc,
    State.rawRead_congr (s.conWrite_mem _), hcontrol⟩

end Sys2Proof.Machine
end

section
/-! The rows decoded without a lemma so far (30_encoding.md R68, 41_control.md R107, 44_trap.md R160). -/

namespace Sys2Proof

theorem decode_jsrr {w : Word} {base : Reg} (h : w &&& 0xF800 = 0x4000) (hbase : w.extractLsb' 6 3 = base.toBits) :
    decode w = .jsrr base := by
  have hop : bits w 12 4 = Opcode.jsr.toBits := opcode_of_mask h (by decide)
  have hmode : w.getLsbD 11 = false := getLsbD_of_mask h 11 (by decide)
  rw [decode_of_opcode hop, fieldSR1_of_bits hbase]
  exact if_neg (by rw [hmode]; decide)

theorem decode_trap {w : Word} (h : w &&& 0xF000 = 0xF000) : decode w = .trap (w.extractLsb' 0 8) := by
  have hop : bits w 12 4 = Opcode.trap.toBits := opcode_of_mask h (by decide)
  rw [decode_of_opcode hop]
  rfl

theorem decode_reserved8 {w : Word} (h : w.extractLsb' 12 4 = 8) : decode w = .reserved8 := by
  rw [decode_of_opcode (o := .reserved8) h]

theorem decode_reserved13 {w : Word} (h : w.extractLsb' 12 4 = 13) : decode w = .reserved13 := by
  rw [decode_of_opcode (o := .reserved13) h]

/-- The mask 0xF000 keeps instr[15:12]. -/
theorem topNibble_of_mask {w v : Word} (h : w &&& 0xF000 = v) : w.extractLsb' 12 4 = v.extractLsb' 12 4 :=
  opcode_of_mask h (by decide)

end Sys2Proof
end

section
/-! Reading an encoded word back (30_encoding.md R62 to R66): each placed field is read where it was placed. -/

namespace Sys2Proof

@[simp] theorem extractLsb'_place_same {n : Nat} (v : BitVec n) {lo : Nat} (h : lo + n ≤ 16) :
    (place v lo).extractLsb' lo n = v := by
  apply BitVec.eq_of_getLsbD_eq
  intro k hk
  have hin : lo + k < 16 ∧ k < 16 := by omega
  simp only [BitVec.getLsbD_extractLsb', getLsbD_place]
  simp [hk, hin]

/-- A field that lies beside the placed one reads zero. -/
@[simp] theorem extractLsb'_place_apart {n : Nat} (v : BitVec n) {lo lo' len : Nat} (h : lo + n ≤ lo' ∨ lo' + len ≤ lo) :
    (place v lo).extractLsb' lo' len = 0 := by
  apply BitVec.eq_of_getLsbD_eq
  intro k hk
  by_cases hlt : lo' + k < lo
  · simp [getLsbD_place, hlt]
  · simp [getLsbD_place, show n ≤ lo' + k - lo by omega]

/-- The flag bits and mode bits of a word are its 1-bit fields. -/
theorem getLsbD_eq_of_extractLsb' {w : Word} {lo : Nat} {b : Bool} (h : w.extractLsb' lo 1 = BitVec.ofBool b) :
    w.getLsbD lo = b := by
  have h0 := congrArg (BitVec.getLsbD · 0) h
  simpa using h0

/-- A field that holds a fitting operand's low bits reads as that operand (R64). -/
theorem fieldImm5_of_bits {w v : Word} (hfits : fitsImm5 v = true) (h : w.extractLsb' 0 5 = operandField v 5) :
    fieldImm5 w = v := by
  simp only [fitsImm5, Bool.and_eq_true, decide_eq_true_eq] at hfits
  rw [fieldImm5, bits, h, sext_operandField] <;> omega

theorem fieldOffset6_of_bits {w v : Word} (hfits : fitsOffset6 v = true) (h : w.extractLsb' 0 6 = operandField v 6) :
    fieldOffset6 w = v := by
  simp only [fitsOffset6, Bool.and_eq_true, decide_eq_true_eq] at hfits
  rw [fieldOffset6, bits, h, sext_operandField] <;> omega

theorem fieldOffset9_of_bits {w v : Word} (hfits : fitsOffset9 v = true) (h : w.extractLsb' 0 9 = operandField v 9) :
    fieldOffset9 w = v := by
  simp only [fitsOffset9, Bool.and_eq_true, decide_eq_true_eq] at hfits
  rw [fieldOffset9, bits, h, sext_operandField] <;> omega

theorem fieldOffset11_of_bits {w v : Word} (hfits : fitsOffset11 v = true)
    (h : w.extractLsb' 0 11 = operandField v 11) : fieldOffset11 w = v := by
  simp only [fitsOffset11, Bool.and_eq_true, decide_eq_true_eq] at hfits
  rw [fieldOffset11, bits, h, sext_operandField] <;> omega

/-- Settles O11: each encoded word lies in its instruction's row, and each of its fields holds what was placed there. -/
theorem decodeOfEncodeIsIdentity : Obligations.DecodeOfEncodeIsIdentity := by
  intro i hwf
  cases i with
  | addReg dr sr1 sr2 =>
    apply decode_addReg _ _ (Laws.EncodeRow.addReg dr sr1 sr2) <;> simp [encode, BitVec.extractLsb'_or]
  | addImm dr sr1 imm =>
    rw [decode_addImm (dr := dr) (sr1 := sr1) _ _ (Laws.EncodeRow.addImm dr sr1 imm), fieldImm5_of_bits hwf] <;>
      simp [encode, BitVec.extractLsb'_or]
  | andReg dr sr1 sr2 =>
    apply decode_andReg _ _ (Laws.EncodeRow.andReg dr sr1 sr2) <;> simp [encode, BitVec.extractLsb'_or]
  | andImm dr sr1 imm =>
    rw [decode_andImm (dr := dr) (sr1 := sr1) _ _ (Laws.EncodeRow.andImm dr sr1 imm), fieldImm5_of_bits hwf] <;>
      simp [encode, BitVec.extractLsb'_or]
  | not dr sr =>
    apply decode_not _ _ (Laws.EncodeRow.not dr sr) <;> simp [encode, BitVec.extractLsb'_or]
  | br n z p off =>
    rw [decode_br (Laws.EncodeRow.br n z p off), getLsbD_eq_of_extractLsb' (b := n), getLsbD_eq_of_extractLsb' (b := z),
      getLsbD_eq_of_extractLsb' (b := p), fieldOffset9_of_bits hwf] <;> simp [encode, BitVec.extractLsb'_or]
  | jmp base =>
    apply decode_jmp (Laws.EncodeRow.jmp base)
    simp [encode, BitVec.extractLsb'_or]
  | jsr off =>
    rw [decode_jsr (Laws.EncodeRow.jsr off), fieldOffset11_of_bits hwf]
    simp [encode, BitVec.extractLsb'_or]
  | jsrr base =>
    apply decode_jsrr (Laws.EncodeRow.jsrr base)
    simp [encode, BitVec.extractLsb'_or]
  | ld dr off =>
    rw [decode_ld (dr := dr) _ (Laws.EncodeRow.ld dr off), fieldOffset9_of_bits hwf] <;>
      simp [encode, BitVec.extractLsb'_or]
  | ldi dr off =>
    rw [decode_ldi (dr := dr) _ (Laws.EncodeRow.ldi dr off), fieldOffset9_of_bits hwf] <;>
      simp [encode, BitVec.extractLsb'_or]
  | ldr dr base off =>
    rw [decode_ldr (dr := dr) _ (Laws.EncodeRow.ldr dr base off) (base := base), fieldOffset6_of_bits hwf] <;>
      simp [encode, BitVec.extractLsb'_or]
  | lea dr off =>
    rw [decode_lea (dr := dr) _ (Laws.EncodeRow.lea dr off), fieldOffset9_of_bits hwf] <;>
      simp [encode, BitVec.extractLsb'_or]
  | st sr off =>
    rw [decode_st (sr := sr) _ (Laws.EncodeRow.st sr off), fieldOffset9_of_bits hwf] <;>
      simp [encode, BitVec.extractLsb'_or]
  | sti sr off =>
    rw [decode_sti (sr := sr) _ (Laws.EncodeRow.sti sr off), fieldOffset9_of_bits hwf] <;>
      simp [encode, BitVec.extractLsb'_or]
  | str sr base off =>
    rw [decode_str (sr := sr) _ (Laws.EncodeRow.str sr base off) (base := base), fieldOffset6_of_bits hwf] <;>
      simp [encode, BitVec.extractLsb'_or]
  | trap v =>
    rw [decode_trap (Laws.EncodeRow.trap v)]
    simp [encode, BitVec.extractLsb'_or]
  | reserved8 => exact decode_reserved8 (topNibble_of_mask Laws.EncodeRow.reserved8)
  | reserved13 => exact decode_reserved13 (topNibble_of_mask Laws.EncodeRow.reserved13)

end Sys2Proof
end

section
/-! What a decoded instruction's operands hold (30_encoding.md R64, R70). -/

namespace Sys2Proof

/-- A widened field of `len` bits lies in its signed range (R64). -/
theorem sext_fits {len : Nat} (v : BitVec len) {lo hi : Int} (hlen : len ≤ 16) (hlo : lo ≤ -(2 ^ (len - 1)))
    (hhi : 2 ^ (len - 1) ≤ hi + 1) : (decide (lo ≤ (sext v).toInt) && decide ((sext v).toInt ≤ hi)) = true := by
  have hs : (sext v).toInt = v.toInt := BitVec.toInt_signExtend_of_le hlen
  have hmin := BitVec.le_toInt v
  have hmax := BitVec.toInt_lt (x := v)
  rw [hs]
  exact Bool.and_eq_true_iff.2 ⟨decide_eq_true (by omega), decide_eq_true (by omega)⟩

@[simp] theorem fitsImm5_fieldImm5 (w : Word) : fitsImm5 (fieldImm5 w) = true :=
  sext_fits (bits w 0 5) (by decide) (by decide) (by decide)

@[simp] theorem fitsOffset6_fieldOffset6 (w : Word) : fitsOffset6 (fieldOffset6 w) = true :=
  sext_fits (bits w 0 6) (by decide) (by decide) (by decide)

@[simp] theorem fitsOffset9_fieldOffset9 (w : Word) : fitsOffset9 (fieldOffset9 w) = true :=
  sext_fits (bits w 0 9) (by decide) (by decide) (by decide)

@[simp] theorem fitsOffset11_fieldOffset11 (w : Word) : fitsOffset11 (fieldOffset11 w) = true :=
  sext_fits (bits w 0 11) (by decide) (by decide) (by decide)

/-- Settles O12: whatever the opcode and the mode bit, each immediate or offset is a widened field. -/
theorem decodedInstructionsAreWellFormed : Obligations.DecodedInstructionsAreWellFormed := by
  intro w
  rw [decode]
  cases Opcode.ofBits (bits w 12 4) with
  | add => dsimp only; split <;> simp [Instr.wellFormed]
  | and => dsimp only; split <;> simp [Instr.wellFormed]
  | jsr => dsimp only; split <;> simp [Instr.wellFormed]
  | _ => simp [Instr.wellFormed]

/-- Settles O16: the decoder on each of the fixed words. -/
theorem specWordsDecode : Obligations.SpecWordsDecode := by
  unfold Obligations.SpecWordsDecode
  decide

end Sys2Proof
end

section
/-! The opcode table (30_encoding.md R61, R67, R69): one entry per row, and no word in two rows. -/

namespace Sys2Proof

/-- The word of the bits a row's rule does not read, as the assembler writes them (R67). -/
def Instr.spelledBits : Instr → Word
  | .not _ _ => 0x003F
  | _ => 0x0000

/-- What the table says of an instruction's row: match and mask, the unread bits, and how they are written. -/
def Instr.entry (i : Instr) : (Word × Word) × Word × Word := (i.row, i.ignoredBits, i.spelledBits)

/-- One entry for each row of the opcode table. -/
def opcodeTable : List ((Word × Word) × Word × Word) :=
  [Instr.addReg .r0 .r0 .r0, .addImm .r0 .r0 0, .andReg .r0 .r0 .r0, .andImm .r0 .r0 0, .not .r0 .r0,
    .br false false false 0, .jmp .r0, .jsr 0, .jsrr .r0, .ld .r0 0, .ldi .r0 0, .ldr .r0 .r0 0, .lea .r0 0,
    .st .r0 0, .sti .r0 0, .str .r0 .r0 0, .trap 0, .reserved8, .reserved13].map Instr.entry

/-- An instruction's entry does not depend on its operands. -/
theorem Instr.entry_mem_opcodeTable (i : Instr) : i.entry ∈ opcodeTable := by
  cases i <;> exact List.elem_iff.mp rfl

/-- Two entries whose rows could hold one word are the same. -/
theorem opcodeTable_disjoint : ∀ e ∈ opcodeTable, ∀ e' ∈ opcodeTable,
    e.1.1 &&& e'.1.2 = e'.1.1 &&& e.1.2 → e = e' := by
  have hall : (opcodeTable.all fun e => opcodeTable.all fun e' =>
      e.1.1 &&& e'.1.2 != e'.1.1 &&& e.1.2 || e == e') = true := by decide
  simpa [-Prod.forall, or_iff_not_imp_left] using hall

/-- Two instructions whose rows share a word have the same entry (R69). -/
theorem Instr.entry_eq_of_common_word {w : Word} {i j : Instr} (hi : w &&& i.row.2 = i.row.1)
    (hj : w &&& j.row.2 = j.row.1) : i.entry = j.entry := by
  apply opcodeTable_disjoint _ i.entry_mem_opcodeTable _ j.entry_mem_opcodeTable
  calc i.row.1 &&& j.row.2
      _ = w &&& (i.row.2 &&& j.row.2) := by rw [← hi, BitVec.and_assoc]
      _ = j.row.1 &&& i.row.2 := by rw [← hj, BitVec.and_assoc, BitVec.and_comm i.row.2]

/-- A word's field, put back where it was read: the word under the field's mask. -/
theorem place_extractLsb' {lo len : Nat} (w : Word) (h : lo + len ≤ 16) :
    place (w.extractLsb' lo len) lo = w &&& place (BitVec.allOnes len) lo := by
  apply BitVec.eq_of_getLsbD_eq
  intro k hk
  simp only [getLsbD_place, BitVec.getLsbD_and, BitVec.getLsbD_extractLsb', BitVec.getLsbD_allOnes]
  by_cases hlo : k < lo
  · simp [hlo]
  · simp [hlo, hk, show lo + (k - lo) = k by omega, show k - lo < 16 by omega, Bool.and_comm]

/-- A word's bit, put back where it was read. -/
theorem place_getLsbD {lo : Nat} (w : Word) (h : lo < 16) :
    place (BitVec.ofBool (w.getLsbD lo)) lo = w &&& place 1#1 lo := by
  have hbit : BitVec.ofBool (w.getLsbD lo) = w.extractLsb' lo 1 := by
    apply BitVec.eq_of_getLsbD_eq
    intro k hk
    obtain rfl : k = 0 := by omega
    simp
  rw [hbit, place_extractLsb' w h]
  rfl

/-- A word whose opcode is known, under the mask of instr[15:12]. -/
theorem mask_of_opcode {w : Word} {o : Opcode} (h : bits w 12 4 = o.toBits) : w &&& 0xF000 = place o.toBits 12 := by
  rw [← h]
  exact (place_extractLsb' (lo := 12) (len := 4) w (by decide)).symm

/-- A word whose opcode and mode bit are known, under the mask of both. -/
theorem mask_of_opcode_mode {w : Word} {o : Opcode} {lo : Nat} {b : Bool} (h : bits w 12 4 = o.toBits)
    (hb : w.getLsbD lo = b) (hlo : lo < 16) :
    w &&& (0xF000 ||| place 1#1 lo) = place o.toBits 12 ||| place (BitVec.ofBool b) lo := by
  rw [BitVec.and_or_distrib_left, mask_of_opcode h, ← hb, place_getLsbD w hlo]

/-- A word lies in the row of the instruction it decodes to (R69). -/
theorem decode_row_match (w : Word) : w &&& (decode w).row.2 = (decode w).row.1 := by
  obtain ⟨o, hop⟩ : ∃ o : Opcode, bits w 12 4 = o.toBits := ⟨_, (Opcode.toBits_ofBits _).symm⟩
  rw [decode_of_opcode hop]
  cases o <;> dsimp only
  case add | and | jsr =>
    split
    · next h => exact mask_of_opcode_mode hop h (by decide)
    · next h => exact mask_of_opcode_mode hop (Bool.eq_false_of_not_eq_true h) (by decide)
  all_goals
    have hmask := mask_of_opcode hop
    exact hmask

/-- Settles O13: the decoded row holds the word, and no word lies in two rows. -/
theorem everyWordMatchesExactlyItsRow : Obligations.EveryWordMatchesExactlyItsRow := by
  intro w i
  constructor
  · intro h
    exact congrArg (·.1) (Instr.entry_eq_of_common_word h (decode_row_match w))
  · intro h
    rw [h]
    exact decode_row_match w

/-- The low bits of a widened field are the field. -/
theorem operandField_sext {len : Nat} (v : BitVec len) (h : len ≤ 16) : operandField (sext v) len = v := by
  apply BitVec.eq_of_getLsbD_eq
  intro k hk
  rw [operandField, sext, BitVec.getLsbD_setWidth, BitVec.getLsbD_signExtend]
  simp [hk, show k < 16 by omega]

/-! Each decoded field, placed back: the word under that field's mask (R62). -/

theorem place_fieldDR (w : Word) : place (fieldDR w).toBits 9 = w &&& 0x0E00 := by
  rw [fieldDR, Reg.toBits_ofBits]
  exact place_extractLsb' (lo := 9) (len := 3) w (by decide)

theorem place_fieldSR1 (w : Word) : place (fieldSR1 w).toBits 6 = w &&& 0x01C0 := by
  rw [fieldSR1, Reg.toBits_ofBits]
  exact place_extractLsb' (lo := 6) (len := 3) w (by decide)

theorem place_fieldSR2 (w : Word) : place (fieldSR2 w).toBits 0 = w &&& 0x0007 := by
  rw [fieldSR2, Reg.toBits_ofBits]
  exact place_extractLsb' (lo := 0) (len := 3) w (by decide)

theorem place_fieldImm5 (w : Word) : place (operandField (fieldImm5 w) 5) 0 = w &&& 0x001F := by
  rw [fieldImm5, operandField_sext _ (by decide)]
  exact place_extractLsb' (lo := 0) (len := 5) w (by decide)

theorem place_fieldOffset6 (w : Word) : place (operandField (fieldOffset6 w) 6) 0 = w &&& 0x003F := by
  rw [fieldOffset6, operandField_sext _ (by decide)]
  exact place_extractLsb' (lo := 0) (len := 6) w (by decide)

theorem place_fieldOffset9 (w : Word) : place (operandField (fieldOffset9 w) 9) 0 = w &&& 0x01FF := by
  rw [fieldOffset9, operandField_sext _ (by decide)]
  exact place_extractLsb' (lo := 0) (len := 9) w (by decide)

theorem place_fieldOffset11 (w : Word) : place (operandField (fieldOffset11 w) 11) 0 = w &&& 0x07FF := by
  rw [fieldOffset11, operandField_sext _ (by decide)]
  exact place_extractLsb' (lo := 0) (len := 11) w (by decide)

theorem place_trapVector (w : Word) : place (bits w 0 8) 0 = w &&& 0x00FF :=
  place_extractLsb' (lo := 0) (len := 8) w (by decide)

theorem place_mode_of_set {w : Word} {lo : Nat} (h : w.getLsbD lo = true) (hlo : lo < 16) :
    place 1#1 lo = w &&& place 1#1 lo := by
  rw [← place_getLsbD w hlo, h]
  rfl

theorem and_mode_of_clear {w : Word} {lo : Nat} (h : ¬w.getLsbD lo = true) (hlo : lo < 16) : w &&& place 1#1 lo = 0 := by
  rw [← place_getLsbD w hlo, Bool.eq_false_of_not_eq_true h]
  exact BitVec.zero_shiftLeft ..

/-- A word under a mask that misses only unread bits `g` and bits `m` it does not have. -/
theorem and_eq_unmasked {w mask m g : Word} (hm : w &&& m = 0) (hall : mask ||| m = ~~~g) :
    w &&& mask = w &&& ~~~g ||| 0 := by
  rw [← hall, BitVec.and_or_distrib_left, hm]
  simp

/-- A decoded word, encoded again, differs from the word in its unread bits only, and those are spelled as the
assembler does (R67). -/
theorem encode_decode (w : Word) :
    encode (decode w) = w &&& ~~~(decode w).ignoredBits ||| (decode w).spelledBits := by
  obtain ⟨o, hop⟩ : ∃ o : Opcode, bits w 12 4 = o.toBits := ⟨_, (Opcode.toBits_ofBits _).symm⟩
  have hmask := mask_of_opcode hop
  rw [decode_of_opcode hop]
  cases o <;> dsimp only
  case add | and =>
    split
    · next h =>
      have hmode : place 1#1 5 = w &&& 0x0020 := place_mode_of_set h (by decide)
      simp only [encode, place_fieldDR, place_fieldSR1, place_fieldImm5, ← hmask, hmode, ← BitVec.and_or_distrib_left,
        Instr.ignoredBits]
      exact and_eq_unmasked BitVec.and_zero (by decide)
    · next h =>
      simp only [encode, place_fieldDR, place_fieldSR1, place_fieldSR2, ← hmask, ← BitVec.and_or_distrib_left,
        Instr.ignoredBits]
      exact and_eq_unmasked (and_mode_of_clear h (by decide)) (by decide)
  case jsr =>
    split
    · next h =>
      have hmode : place 1#1 11 = w &&& 0x0800 := place_mode_of_set h (by decide)
      simp only [encode, place_fieldOffset11, ← hmask, hmode, ← BitVec.and_or_distrib_left, Instr.ignoredBits]
      exact and_eq_unmasked BitVec.and_zero (by decide)
    · next h =>
      simp only [encode, place_fieldSR1, ← hmask, ← BitVec.and_or_distrib_left, Instr.ignoredBits]
      exact and_eq_unmasked (and_mode_of_clear h (by decide)) (by decide)
  case br =>
    simp only [encode, place_getLsbD w (show 11 < 16 by decide), place_getLsbD w (show 10 < 16 by decide),
      place_getLsbD w (show 9 < 16 by decide), place_fieldOffset9, ← hmask, ← BitVec.and_or_distrib_left,
      Instr.ignoredBits]
    exact and_eq_unmasked BitVec.and_zero (by decide)
  case not =>
    simp only [encode, place_fieldDR, place_fieldSR1, ← hmask, ← BitVec.and_or_distrib_left, Instr.ignoredBits]
    exact congrArg (· ||| place 0b111111#6 0) (congrArg (w &&& ·) (by decide))
  all_goals
    simp only [encode, place_fieldDR, place_fieldSR1, place_fieldOffset6, place_fieldOffset9, place_trapVector, ← hmask,
      ← BitVec.and_or_distrib_left, Instr.ignoredBits]
    exact and_eq_unmasked BitVec.and_zero (by decide)

/-- A placed field does not touch bits outside its place. -/
theorem place_and_apart {n : Nat} (v : BitVec n) {lo : Nat} {m : Word} (h : place (BitVec.allOnes n) lo &&& m = 0) :
    place v lo &&& m = 0 := by
  apply BitVec.eq_of_getLsbD_eq
  intro k hk
  have hk0 := congrArg (BitVec.getLsbD · k) h
  simp only [BitVec.getLsbD_and, getLsbD_place, BitVec.getLsbD_allOnes] at hk0 ⊢
  by_cases hn : k - lo < n
  · simp_all
  · simp [BitVec.getLsbD_of_ge v _ (Nat.le_of_not_lt hn)]

/-- The encoder writes the unread bits as the assembler does (R67). -/
theorem encode_and_ignoredBits (i : Instr) : encode i &&& i.ignoredBits = i.spelledBits := by
  cases i with
  | not dr sr =>
    simp (disch := decide) only [encode, Instr.ignoredBits, BitVec.and_or_distrib_right, place_and_apart]
    rfl
  | _ =>
    simp (disch := decide) [encode, Instr.ignoredBits, Instr.spelledBits, BitVec.and_or_distrib_right, place_and_apart]

/-- Two words agree under a mask exactly when the bits in which they differ lie outside it. -/
theorem Word.xor_and_eq_zero_iff {w w' m : Word} : (w ^^^ w') &&& m = 0 ↔ w &&& m = w' &&& m := by
  have hdistrib : (w ^^^ w') &&& m = (w &&& m) ^^^ (w' &&& m) := by
    apply BitVec.eq_of_getLsbD_eq
    intro k _
    simp only [BitVec.getLsbD_and, BitVec.getLsbD_xor, Bool.and_xor_distrib_right]
  rw [hdistrib]
  exact BitVec.xor_eq_zero_iff
/-- The bits a rule reads are the encoded instruction's. -/
theorem encode_decode_read (w : Word) :
    encode (decode w) &&& ~~~(decode w).ignoredBits = w &&& ~~~(decode w).ignoredBits := by
  have hspell : (decode w).spelledBits &&& ~~~(decode w).ignoredBits = 0 := by
    rw [← encode_and_ignoredBits, BitVec.and_assoc]
    simp
  rw [encode_decode, BitVec.and_or_distrib_right, hspell, BitVec.and_assoc, BitVec.and_self]
  exact BitVec.or_zero

/-- Settles O14: a decoded instruction and its encoding hold the bits its rule reads and no others. -/
theorem decodeIgnoresExactlyTheUnreadBits : Obligations.DecodeIgnoresExactlyTheUnreadBits := by
  refine ⟨fun w w' => ⟨fun h => ⟨congrArg Instr.row h, ?_⟩, ?_⟩, fun i => ?_⟩
  · rw [Word.xor_and_eq_zero_iff, ← encode_decode_read, h, encode_decode_read]
  · rintro ⟨hrow, hread⟩
    have hrow' : w' &&& (decode w).row.2 = (decode w).row.1 := by rw [hrow]; exact decode_row_match w'
    have hentry : (decode w).entry = (decode w').entry := Instr.entry_eq_of_common_word hrow' (decode_row_match w')
    have hignored : (decode w).ignoredBits = (decode w').ignoredBits := congrArg (·.2.1) hentry
    have hspelled : (decode w).spelledBits = (decode w').spelledBits := congrArg (·.2.2) hentry
    have hencode : encode (decode w) = encode (decode w') := by
      rw [encode_decode w, encode_decode w', Word.xor_and_eq_zero_iff.1 hread, hignored, hspelled]
    calc decode w
        _ = decode (encode (decode w)) := (decodeOfEncodeIsIdentity _ (decodedInstructionsAreWellFormed w)).symm
        _ = decode w' := by rw [hencode, decodeOfEncodeIsIdentity _ (decodedInstructionsAreWellFormed w')]
  · rw [encode_and_ignoredBits]
    cases i <;> rfl

end Sys2Proof
end

section
/-! What exec does, said once per kind of instruction (60_exceptions.md R182, R185, R192). -/

namespace Sys2Proof.Machine

theorem exec_reserved8 (s : State) : exec .reserved8 s = .next s.abort := rfl

theorem exec_reserved13 (s : State) : exec .reserved13 s = .next s.abort := rfl

/-- HALT writes its message, flushes and stops the engine (R166). -/
theorem exec_halt (s : State) :
    exec (.trap 0x25) s = .next ((s.conWriteAll Config.haltMsg).conFlush.halt .haltTrap) := by
  rw [exec_trap, State.dispatchTrap_halt]

/-- Settles O54: each arm of exec is a next state. -/
theorem everyInstructionCompletes : Obligations.EveryInstructionCompletes := by
  intro i s
  cases i <;> exact ⟨_, rfl⟩

/-- An instruction halts, aborts, is another TRAP, or leaves the engine, the service in flight and the marks alone. -/
theorem exec_cases {i : Instr} {s t : State} (h : exec i s = .next t) :
    (i = .trap 0x25 ∧ t = (s.conWriteAll Config.haltMsg).conFlush.halt .haltTrap) ∨
    ((i = .reserved8 ∨ i = .reserved13) ∧ t = s.abort) ∨
    (∃ v, v ≠ 0x25 ∧ i = .trap v ∧ t = s.dispatchTrap v) ∨
    ((∀ v, i ≠ .trap v) ∧ i ≠ .reserved8 ∧ i ≠ .reserved13 ∧
      t.engine = s.engine ∧ t.inFlight = s.inFlight ∧ t.marks = s.marks) := by
  by_cases hplain : (∀ v, i ≠ .trap v) ∧ i ≠ .reserved8 ∧ i ≠ .reserved13
  · obtain ⟨htrap, h8, h13⟩ := hplain
    obtain ⟨-, -, hframe⟩ := exec_frame h
    obtain ⟨he, hf, hm, -⟩ := hframe htrap h8 h13
    exact .inr (.inr (.inr ⟨htrap, h8, h13, he, hf, hm⟩))
  · cases i with
    | trap v =>
      by_cases hv : v = 0x25
      · subst hv
        exact .inl ⟨rfl, (Host.Outcome.next.inj ((exec_halt s).symm.trans h)).symm⟩
      · exact .inr (.inr (.inl ⟨v, hv, rfl, (Host.Outcome.next.inj h).symm⟩))
    | reserved8 => exact .inr (.inl ⟨.inl rfl, (Host.Outcome.next.inj h).symm⟩)
    | reserved13 => exact .inr (.inl ⟨.inr rfl, (Host.Outcome.next.inj h).symm⟩)
    | _ => simp at hplain

/-- From Running, exec halts by HALT alone, aborts by a reserved form alone, and never halts with PcOverflow. -/
theorem exec_engine {i : Instr} {s t : State} (h : exec i s = .next t) (he : s.engine = .running) :
    (t.engine = .halted .haltTrap ↔ i = .trap 0x25) ∧
    ((∃ c p j, t.engine = .aborted c p j) ↔ i = .reserved8 ∨ i = .reserved13) ∧ t.engine ≠ .halted .pcOverflow := by
  obtain ⟨rfl, rfl⟩ | ⟨hi, rfl⟩ | ⟨v, hv, rfl, rfl⟩ | ⟨htrap, h8, h13, heng, -, -⟩ := exec_cases h
  · simp
  · obtain rfl | rfl := hi <;> simp
  · simpa [(s.dispatchTrap_frame hv).engine, he] using hv
  · simp [heng, he, htrap, h8, h13]

end Sys2Proof.Machine
end

section
/-! The overflow check (60_exceptions.md R184, R188): it writes the engine state alone. -/

namespace Sys2Proof.Machine

theorem State.endStep_eq (s : State) : s.endStep = { s with engine := s.endStep.engine } := by
  obtain h | ⟨h, -⟩ := s.endStep_cases
  · rw [h]
  · rw [h]
    rfl

@[simp] theorem State.endStep_regs (s : State) : s.endStep.regs = s.regs := by rw [s.endStep_eq]
@[simp] theorem State.endStep_pc (s : State) : s.endStep.pc = s.pc := by rw [s.endStep_eq]
@[simp] theorem State.endStep_cond (s : State) : s.endStep.cond = s.cond := by rw [s.endStep_eq]
@[simp] theorem State.endStep_mem (s : State) : s.endStep.mem = s.mem := by rw [s.endStep_eq]
@[simp] theorem State.endStep_pc0 (s : State) : s.endStep.pc0 = s.pc0 := by rw [s.endStep_eq]
@[simp] theorem State.endStep_instr (s : State) : s.endStep.instr = s.instr := by rw [s.endStep_eq]
@[simp] theorem State.endStep_inFlight (s : State) : s.endStep.inFlight = s.inFlight := by rw [s.endStep_eq]
@[simp] theorem State.endStep_conIn (s : State) : s.endStep.conIn = s.conIn := by rw [s.endStep_eq]
@[simp] theorem State.endStep_conOut (s : State) : s.endStep.conOut = s.conOut := by rw [s.endStep_eq]
@[simp] theorem State.endStep_marks (s : State) : s.endStep.marks = s.marks := by rw [s.endStep_eq]

/-- `fault_cause` is valid exactly when E = Aborted. -/
theorem State.faultCause_eq_none_iff {s : State} : s.faultCause = none ↔ ∀ c p i, s.engine ≠ .aborted c p i := by
  unfold State.faultCause
  cases s.engine <;> simp

/-- The engine state after the overflow check. -/
theorem State.endStep_engine (s : State) :
    s.endStep.engine =
      if s.inFlight = none ∧ s.pc0 = 0xFFFF ∧ s.faultCause = none then .halted .pcOverflow else s.engine := by
  split
  · next h =>
    obtain ⟨hf, hpc, hcause⟩ := h
    rw [s.endStep_of_eq hf hpc (State.faultCause_eq_none_iff.1 hcause), State.halt_engine]
  · next h =>
    obtain heq | ⟨-, hf, hpc, hcause⟩ := s.endStep_cases
    · rw [heq]
    · exact absurd ⟨hf, hpc, State.faultCause_eq_none_iff.2 hcause⟩ h

/-- The check never enters nor leaves Aborted. -/
theorem State.endStep_aborted_iff (s : State) :
    (∃ c p i, s.endStep.engine = .aborted c p i) ↔ ∃ c p i, s.engine = .aborted c p i := by
  obtain heq | ⟨heq, -, -, hne⟩ := s.endStep_cases
  · rw [heq]
  · simp [heq, hne]

/-- HaltTrap is what a HALT reports, unless its step was fetched from 0xFFFF and has ended. -/
theorem State.endStep_haltTrap_iff (s : State) :
    s.endStep.engine = .halted .haltTrap ↔ s.engine = .halted .haltTrap ∧ ¬(s.inFlight = none ∧ s.pc0 = 0xFFFF) := by
  rw [State.endStep_engine]
  split
  · next h => simp [h.1, h.2.1]
  · next h =>
    refine ⟨fun he => ⟨he, fun hend => h ⟨hend.1, hend.2, ?_⟩⟩, And.left⟩
    simp [State.faultCause_eq_none_iff, he]

/-- PcOverflow is what the check itself reports. -/
theorem State.endStep_pcOverflow_iff {s : State} (h : s.engine ≠ .halted .pcOverflow) :
    s.endStep.engine = .halted .pcOverflow ↔
      s.endStep.inFlight = none ∧ s.endStep.pc0 = 0xFFFF ∧ s.endStep.faultCause = none := by
  have hcause : s.endStep.faultCause = none ↔ s.faultCause = none := by
    simpa [State.faultCause_eq_none_iff] using not_congr s.endStep_aborted_iff
  rw [State.endStep_engine, hcause, State.endStep_inFlight, State.endStep_pc0]
  split <;> simp_all

end Sys2Proof.Machine
end

section
/-! How the engine leaves Running (60_exceptions.md R180, R184, R188). -/

namespace Sys2Proof.Machine

/-- Settles O55: a new step stops as its instruction and then the overflow check do; a service that goes on stays Running,
so the check alone can stop it. -/
theorem engineStopsExactlyOnItsEvents : Obligations.EngineStopsExactlyOnItsEvents := by
  intro s t h
  obtain ⟨he, ⟨hf, u, hu, rfl⟩ | ⟨f, hf, rfl⟩⟩ := step_cases h
  · obtain ⟨hhalt, habort, hover⟩ := exec_engine hu (s.fetch_engine.trans he)
    obtain ⟨hpc0, -, -⟩ := exec_frame hu
    refine ⟨?_, ?_, State.endStep_pcOverflow_iff hover⟩
    · have hend : decode s.fetch.instr = .trap 0x25 → u.inFlight = none := fun hi => by
        rw [hi, exec_halt] at hu
        simp [← Host.Outcome.next.inj hu, hf]
      rw [State.endStep_haltTrap_iff, hhalt, hpc0, State.fetch_pc0]
      constructor
      · exact fun ⟨hi, htop⟩ => ⟨hf, hi, fun hpc => htop ⟨hend hi, hpc⟩⟩
      · exact fun ⟨_, hi, hpc⟩ => ⟨hi, fun htop => hpc htop.2⟩
    · rw [State.endStep_aborted_iff, habort]
      simp [hf]
  · have hrun : (s.resume f).engine = .running := (s.resume_frame f).engine.trans he
    refine ⟨?_, ?_, State.endStep_pcOverflow_iff (by simp [hrun])⟩
    · simp [State.endStep_haltTrap_iff, hrun, hf]
    · simp [State.endStep_aborted_iff, hrun, hf]

end Sys2Proof.Machine
end

section
/-! JSRR (41_control.md R107) under its two readings. -/

namespace Sys2Proof.Machine

/-- After the link R7 is PCinc, and every other register is as it was. -/
theorem State.link_reg (s : State) (base : Reg) : s.link.reg base = if base = .r7 then s.pc else s.reg base := by
  split
  · next h => rw [h]; exact s.reg_setReg_same .r7 s.pc
  · next h => exact s.reg_setReg_other s.pc h

/-- At the default the link comes first, so JSRR R7 jumps to PCinc. -/
theorem exec_jsrr (base : Reg) (s : State) :
    exec (.jsrr base) s = .next (s.link.setPc (if base = .r7 then s.pc else s.reg base)) := by
  rw [← s.link_reg base]
  rfl

/-- Settles O27: the base is read after the link; before it, the read differs for R7 alone. -/
theorem jsrrLinksThenReadsBase : Obligations.JsrrLinksThenReadsBase := by
  intro w base s hrow hbase
  refine ⟨decode_jsrr hrow hbase, ⟨_, exec_jsrr base s, s.link_setPc_frame _⟩, rfl, s.reg_setReg_same .r7 s.pc,
    fun hne => ?_⟩
  have hread : s.link.reg base = s.reg base := by rw [s.link_reg, if_neg hne]
  exact congrArg s.link.setPc hread.symm

end Sys2Proof.Machine
end

section
/-! What each kind of operation leaves alone, for the tables of 10_state.md (R23, R26, R28). -/

namespace Sys2Proof.Machine

@[simp] theorem State.memRead_regs (s : State) (a : Word) : (s.memRead a).2.regs = s.regs := by
  obtain ⟨hregs, -⟩ := s.memRead_frame a
  exact hregs

@[simp] theorem State.memRead_pc (s : State) (a : Word) : (s.memRead a).2.pc = s.pc := by
  obtain ⟨-, hpc, -⟩ := s.memRead_frame a
  exact hpc

/-- Whatever the vector, TRAP keeps PC, COND, memory, its hidden state and every register but R0 (R160, R190). -/
theorem exec_trap_frame {v : Byte} {s t : State} (h : exec (.trap v) s = .next t) :
    t.pc = s.pc ∧ t.cond = s.cond ∧ t.mem = s.mem ∧ t.pc0 = s.pc0 ∧ t.instr = s.instr ∧ keepsRegsBut .r0 s t := by
  by_cases hv : v = 0x25
  · subst hv
    rw [exec_halt] at h
    cases h
    exact ⟨rfl, rfl, rfl, rfl, rfl, fun _ _ => rfl⟩
  · cases h
    obtain ⟨hpc, hcond, hmem, -, hpc0, hinstr, hregs⟩ := s.dispatchTrap_frame hv
    exact ⟨hpc, hcond, hmem, hpc0, hinstr, hregs⟩

/-- The vector of each service (R160). -/
def Service.vector : Service → Byte
  | .getc => 0x20
  | .out => 0x21
  | .puts => 0x22
  | .inChar => 0x23
  | .putsp => 0x24
  | .halt => 0x25

theorem Service.ofVector_eq_some_iff (v : Byte) (sv : Service) : Service.ofVector v = some sv ↔ v = sv.vector := by
  revert v
  cases sv <;> decide

section
variable (s : State) (bytesOf : Word → Option (List Byte)) (a : Word) (again : InFlight)

@[simp] theorem State.stringPass_regs : (s.stringPass bytesOf a again).regs = s.regs := by
  obtain ⟨-, hregs, -⟩ := s.stringPass_frame bytesOf a again
  exact hregs

@[simp] theorem State.stringPass_conIn : (s.stringPass bytesOf a again).conIn = s.conIn := by
  obtain ⟨-, -, -, hin, -⟩ := s.stringPass_frame bytesOf a again
  exact hin

end

/-- What TRAP does for a vector of R160's table, and for one outside it. -/
theorem State.dispatchTrap_cases (s : State) (v : Byte) :
    (∃ sv : Service, v = sv.vector ∧ s.dispatchTrap v = s.serve sv) ∨
      (Service.ofVector v = none ∧ s.dispatchTrap v = s.mark .undefinedTrapVector) := by
  unfold State.dispatchTrap
  cases h : Service.ofVector v with
  | none => exact .inr ⟨rfl, rfl⟩
  | some sv => exact .inl ⟨sv, (Service.ofVector_eq_some_iff v sv).1 h, rfl⟩

/-- Only GETC and IN write a register (R161, R164). -/
theorem State.dispatchTrap_regs {v : Byte} (s : State) (hgetc : v ≠ 0x20) (hin : v ≠ 0x23) :
    (s.dispatchTrap v).regs = s.regs := by
  obtain ⟨sv, rfl, h⟩ | ⟨-, h⟩ := s.dispatchTrap_cases v
  · rw [h]
    cases sv with
    | getc => exact absurd rfl hgetc
    | inChar => exact absurd rfl hin
    | puts => exact s.stringPass_regs _ _ _
    | putsp => exact s.stringPass_regs _ _ _
    | out => rfl
    | halt => rfl
  · rw [h, State.mark_regs]

/-- Settles O56: each arm's writes, and R23's writes column. -/
theorem registersWrittenOnlyByTheirWriters : Obligations.RegistersWrittenOnlyByTheirWriters := by
  intro i s t h r hr
  have hresult : ∀ (u : State) (dr : Reg) (v : Word), r ∉ [dr] → u.regs = s.regs →
      (u.writeResult dr v).reg r = s.reg r :=
    fun u dr v hne hu => (u.reg_setReg_other v (List.ne_of_not_mem_cons hne)).trans (State.reg_congr hu r)
  cases i with
  | trap v =>
    by_cases hv : v = 0x20 ∨ v = 0x23
    · obtain ⟨-, -, -, -, -, hregs⟩ := exec_trap_frame h
      rw [regsWritten, if_pos hv] at hr
      exact hregs r (List.ne_of_not_mem_cons hr)
    · rw [not_or] at hv
      cases h
      exact State.reg_congr (s.dispatchTrap_regs hv.1 hv.2) r
  | br n z p off =>
    rw [exec_br] at h
    cases h
    rfl
  | jsr off => cases h; exact s.reg_setReg_other s.pc (List.ne_of_not_mem_cons hr)
  | jsrr base => cases h; exact s.reg_setReg_other s.pc (List.ne_of_not_mem_cons hr)
  | ld dr off => cases h; exact hresult _ dr _ hr (s.memRead_regs _)
  | ldr dr base off => cases h; exact hresult _ dr _ hr (s.memRead_regs _)
  | ldi dr off => cases h; exact hresult _ dr _ hr ((State.memRead_regs _ _).trans (s.memRead_regs _))
  | sti sr off => cases h; exact State.reg_congr (s.memRead_regs _) r
  | addReg dr _ _ | addImm dr _ _ | andReg dr _ _ | andImm dr _ _ | not dr _ | lea dr _ =>
    cases h; exact hresult s dr _ hr rfl
  | jmp _ | st _ _ | str _ _ _ | reserved8 | reserved13 => cases h; rfl

/-- COND after exec: one flag where the instruction is one of R28's seven, and unchanged otherwise. -/
theorem exec_cond {i : Instr} {s t : State} (h : exec i s = .next t) :
    (condWritten i = true → condOneFlag t.cond) ∧ (condWritten i = false → t.cond = s.cond) := by
  cases i with
  | trap v =>
    obtain ⟨-, hcond, -⟩ := exec_trap_frame h
    exact ⟨nofun, fun _ => hcond⟩
  | br n z p off =>
    rw [exec_br] at h
    cases h
    exact ⟨nofun, fun _ => rfl⟩
  | sti sr off =>
    obtain ⟨-, -, hcond, -⟩ := s.memRead_frame (s.pc + off)
    cases h
    exact ⟨nofun, fun _ => hcond⟩
  | jmp | jsr | jsrr | st | str | reserved8 | reserved13 =>
    cases h
    exact ⟨nofun, fun _ => rfl⟩
  | _ =>
    cases h
    exact ⟨fun _ => flagsOf_oneFlag _, nofun⟩

/-- Settles O57: exec's writers of COND; a service that goes on and the overflow check write none. -/
theorem condWrittenOnlyByItsWriters : Obligations.CondWrittenOnlyByItsWriters := by
  refine ⟨fun i s t h => exec_cond h, fun s t hs h => ?_⟩
  obtain ⟨-, ⟨-, u, hu, rfl⟩ | ⟨f, -, rfl⟩⟩ := step_cases h
  · rw [State.endStep_cond]
    obtain ⟨hwrites, hkeeps⟩ := exec_cond hu
    cases hw : condWritten (decode s.fetch.instr) with
    | true => exact hwrites hw
    | false => rwa [hkeeps hw, State.fetch_cond]
  · rwa [State.endStep_cond, (s.resume_frame f).cond]

/-- Settles O58: each arm's PC, and R26's table. -/
theorem pcAfterEachInstruction : Obligations.PcAfterEachInstruction := by
  intro i s t v h hv
  cases i with
  | trap w =>
    obtain ⟨hpc, -⟩ := exec_trap_frame h
    rw [hpc]
    exact Option.some.inj hv
  | br n z p off =>
    rw [exec_br, branchTaken_eq_branchBits] at h
    cases h
    exact Option.some.inj hv
  | jsrr base =>
    rw [exec_jsrr] at h
    cases h
    exact Option.some.inj hv
  | ld dr off => cases h; exact (s.memRead_pc _).trans (Option.some.inj hv)
  | ldr dr base off => cases h; exact (s.memRead_pc _).trans (Option.some.inj hv)
  | ldi dr off => cases h; exact ((State.memRead_pc _ _).trans (s.memRead_pc _)).trans (Option.some.inj hv)
  | sti sr off => cases h; exact (s.memRead_pc _).trans (Option.some.inj hv)
  | reserved8 => cases hv
  | reserved13 => cases hv
  | _ => cases h; exact Option.some.inj hv

/-- A read changes no word but KBSR and KBDR, and those only where it polls (R43). -/
theorem State.rawRead_memRead (s : State) {c a : Word} (h : a = 0xFE00 ∨ a = 0xFE02 → c ≠ 0xFE00) :
    (s.memRead c).2.rawRead a = s.rawRead a := by
  by_cases hc : c = Params.kbsr
  · obtain ⟨-, -, -, -, -, -, -, -, -, hother⟩ := s.memRead_frame c
    exact hother a (fun ha => h (.inl ha) hc) (fun ha => h (.inr ha) hc)
  · rw [s.memRead_plain hc]

/-- Settles O59: each arm's reads and its store. -/
theorem memoryChangesOnlyByStoreOrPoll : Obligations.MemoryChangesOnlyByStoreOrPoll := by
  intro i s t a h hstore hread
  have hread' : ∀ c ∈ s.memReads i, a = 0xFE00 ∨ a = 0xFE02 → c ≠ 0xFE00 := fun c hc ha hce => hread ha (hce ▸ hc)
  cases i with
  | trap v =>
    obtain ⟨-, -, hmem, -⟩ := exec_trap_frame h
    exact State.rawRead_congr hmem a
  | br n z p off =>
    rw [exec_br] at h
    cases h
    rfl
  | ld dr off => cases h; exact s.rawRead_memRead (hread' _ (.head _))
  | ldr dr base off => cases h; exact s.rawRead_memRead (hread' _ (.head _))
  | ldi dr off =>
    cases h
    exact (State.rawRead_memRead _ (hread' _ (.tail _ (.head _)))).trans (s.rawRead_memRead (hread' _ (.head _)))
  | st sr off => cases h; exact s.rawRead_memWrite_other _ fun ha => hstore (congrArg some ha.symm)
  | str sr base off => cases h; exact s.rawRead_memWrite_other _ fun ha => hstore (congrArg some ha.symm)
  | sti sr off =>
    cases h
    exact (State.rawRead_memWrite_other _ _ fun ha => hstore (congrArg some ha.symm)).trans
      (s.rawRead_memRead (hread' _ (.head _)))
  | _ => cases h; rfl

end Sys2Proof.Machine
end

section
/-! The console input is seen by the poll, GETC and IN alone (10_state.md R31, 60_exceptions.md R189). -/

namespace Sys2Proof.Machine

/-- The state with other console input. -/
def State.withInput (s : State) (answers : List ConAnswer) : State := { s with conIn := answers }

theorem State.memRead_withInput (s : State) {a : Word} (answers : List ConAnswer) (h : a ≠ 0xFE00) :
    (s.withInput answers).memRead a = ((s.memRead a).1, (s.memRead a).2.withInput answers) := by
  rw [s.memRead_plain h, (s.withInput answers).memRead_plain h]
  rfl

theorem State.memRead_conIn (s : State) {a : Word} (h : a ≠ 0xFE00) : (s.memRead a).2.conIn = s.conIn := by
  rw [s.memRead_plain h]

theorem State.stringPass_withInput (s : State) (bytesOf : Word → Option (List Byte)) (a : Word) (again : InFlight)
    (answers : List ConAnswer) :
    (s.withInput answers).stringPass bytesOf a again = (s.stringPass bytesOf a again).withInput answers := by
  unfold State.stringPass
  rw [show (s.withInput answers).mem = s.mem from rfl]
  generalize stringLoop bytesOf s.mem Params.memoryWords a = x
  obtain ⟨bs, ended⟩ := x
  cases ended <;> rfl

/-- No service but GETC and IN looks at the input. -/
theorem State.dispatchTrap_withInput {v : Byte} (s : State) (answers : List ConAnswer) (hgetc : v ≠ 0x20)
    (hin : v ≠ 0x23) :
    (s.dispatchTrap v).conIn = s.conIn ∧
      (s.withInput answers).dispatchTrap v = (s.dispatchTrap v).withInput answers := by
  unfold State.dispatchTrap
  cases hv : Service.ofVector v with
  | none => exact ⟨rfl, rfl⟩
  | some sv =>
    rw [Service.ofVector_eq_some_iff] at hv
    cases sv with
    | getc => exact absurd hv hgetc
    | inChar => exact absurd hv hin
    | puts => exact ⟨s.stringPass_conIn _ _ _, s.stringPass_withInput _ _ _ answers⟩
    | putsp => exact ⟨s.stringPass_conIn _ _ _, s.stringPass_withInput _ _ _ answers⟩
    | out => exact ⟨rfl, rfl⟩
    | halt => exact ⟨rfl, rfl⟩

/-- A load from any address but KBSR does not look at the input. -/
theorem State.loadFrom_withInput (s : State) (dr : Reg) {a : Word} (answers : List ConAnswer) (h : a ≠ 0xFE00) :
    (s.withInput answers).loadFrom dr a = (s.loadFrom dr a).withInput answers := by
  unfold State.loadFrom
  rw [s.memRead_withInput answers h]
  rfl

/-- Settles O60: each arm on the state and on the state with other input. -/
theorem consoleInputIsInvisibleWithoutAPoll : Obligations.ConsoleInputIsInvisibleWithoutAPoll := by
  intro i s t answers hread hgetc hin h
  have hread' : ∀ c ∈ s.memReads i, c ≠ 0xFE00 := fun c hc hce => hread (hce ▸ hc)
  change _ ∧ exec i (s.withInput answers) = .next (t.withInput answers)
  cases i with
  | trap v =>
    obtain ⟨hkept, hcomm⟩ := s.dispatchTrap_withInput (v := v) answers (by simpa using hgetc) (by simpa using hin)
    cases h
    exact ⟨hkept, congrArg _ hcomm⟩
  | br n z p off =>
    rw [exec_br] at h ⊢
    cases h
    exact ⟨rfl, rfl⟩
  | ld dr off =>
    have ha := hread' _ (.head _)
    cases h
    exact ⟨s.memRead_conIn ha, congrArg _ (s.loadFrom_withInput dr answers ha)⟩
  | ldr dr base off =>
    have ha := hread' _ (.head _)
    cases h
    exact ⟨s.memRead_conIn ha, congrArg _ (s.loadFrom_withInput dr answers ha)⟩
  | ldi dr off =>
    have ha := hread' _ (.head _)
    have hb := hread' _ (.tail _ (.head _))
    cases h
    refine ⟨(State.memRead_conIn _ hb).trans (s.memRead_conIn ha), ?_⟩
    rw [exec_ldi, show (s.withInput answers).pc = s.pc from rfl, s.memRead_withInput answers ha]
    exact congrArg _ (State.loadFrom_withInput _ dr answers hb)
  | sti sr off =>
    have ha := hread' _ (.head _)
    cases h
    refine ⟨s.memRead_conIn ha, ?_⟩
    rw [exec_sti, show (s.withInput answers).eaIndirect off = _ from s.memRead_withInput answers ha]
    rfl
  | _ =>
    cases h
    exact ⟨rfl, rfl⟩

end Sys2Proof.Machine
end

section
/-! The step from each engine state (10_state.md R24, R30; 60_exceptions.md R182 to R184, R188). -/

namespace Sys2Proof.Machine

/-- A new step from Running executes the fetched instruction and then runs the overflow check. -/
theorem exists_exec_step {s : State} (he : s.engine = .running) (hf : s.inFlight = none) :
    ∃ u, exec (decode s.fetch.instr) s.fetch = .next u ∧ step s = .next u.endStep := by
  obtain ⟨u, hu⟩ := everyInstructionCompletes (decode s.fetch.instr) s.fetch
  exact ⟨u, hu, step_of_exec he hf hu⟩

/-- The overflow check changes nothing where the step was fetched elsewhere, aborted or has not ended. -/
theorem State.endStep_of_not_overflow {u : State} (h : u.pc0 ≠ 0xFFFF ∨ u.faultCause ≠ none ∨ u.inFlight ≠ none) :
    u.endStep = u := by
  obtain heq | ⟨-, hf, hpc, hne⟩ := u.endStep_cases
  · exact heq
  · obtain h | h | h := h
    · exact absurd hpc h
    · exact absurd (State.faultCause_eq_none_iff.2 hne) h
    · exact absurd hf h

/-- Settles O1: the two outcomes of the overflow check. -/
theorem stepRunsDecodedInstruction : Obligations.StepRunsDecodedInstruction := by
  rintro s i he hf rfl -
  obtain ⟨u, hu, hstep⟩ := exists_exec_step he hf
  obtain ⟨hpc0, -⟩ := exec_frame hu
  refine ⟨u, hu, fun ⟨hpc, hcause, hend⟩ => ?_, fun h => ?_⟩
  · rw [hstep, State.endStep_of_eq hend (hpc0.trans hpc) (State.faultCause_eq_none_iff.1 hcause)]
    rfl
  · rw [hstep, State.endStep_of_not_overflow (by rwa [hpc0])]

/-- Settles O3: R30's faults, and from Running a new step or the step of the service in flight. -/
theorem terminalEngineHasNoSuccessor : Obligations.TerminalEngineHasNoSuccessor := by
  refine fun s => ⟨fun r h => ?_, fun c p i h => ?_, fun h => ?_⟩
  · simp [step, cycle, h]
  · simp [step, cycle, h]
  · cases hf : s.inFlight with
    | none =>
      obtain ⟨u, -, hstep⟩ := exists_exec_step h hf
      exact ⟨_, hstep⟩
    | some f => exact ⟨_, step_of_inFlight h hf⟩

/-- Settles O4: the overflow check after a new step and after a service that goes on. -/
theorem fetchFromTopHaltsAfterExecution : Obligations.FetchFromTopHaltsAfterExecution := by
  constructor
  · intro s u he hf hu
    obtain ⟨-, habort, hover⟩ := exec_engine hu (s.fetch_engine.trans he)
    obtain ⟨hpc0, -⟩ := exec_frame hu
    rw [step_of_exec he hf hu]
    refine ⟨fun hpc h8 h13 hend => ?_, fun hpc => ?_⟩
    · have hne : ∀ c p i, u.engine ≠ .aborted c p i := fun c p i h =>
        (habort.1 ⟨c, p, i, h⟩).elim h8 h13
      rw [State.endStep_of_eq hend (hpc0.trans hpc) hne]
      rfl
    · rw [State.endStep_of_not_overflow (.inl (by rwa [hpc0]))]
      exact ⟨rfl, hover⟩
  · intro s f he hf
    have hframe := s.resume_frame f
    have hrun : (s.resume f).engine = .running := hframe.engine.trans he
    rw [step_of_inFlight he hf]
    refine ⟨fun hpc hend => ?_, fun hpc => ?_⟩
    · rw [State.endStep_of_eq hend (hframe.pc0.trans hpc) (by simp [hrun])]
      rfl
    · rw [State.endStep_of_not_overflow (.inl (by rwa [hframe.pc0]))]
      exact ⟨rfl, hrun⟩

/-- What an abort leaves (R182): the engine reports the word, PC is pc0 or PCinc, and nothing else changes. -/
theorem State.abort_frame (s : State) :
    (s.abort.pc = s.pc0 ∨ s.abort.pc = s.pc) ∧ keepsRegs s s.abort ∧ keepsMemory s s.abort := by
  refine ⟨?_, State.reg_congr s.abort_regs, State.rawRead_congr s.abort_mem⟩
  rw [State.abort_pc]
  split
  · exact .inr rfl
  · exact .inl rfl

/-- Settles O5: the fetched word decodes to a reserved form, and the overflow check leaves an abort as it is. -/
theorem reservedOpcodeAborts : Obligations.ReservedOpcodeAborts := by
  intro s he hf hword
  have hexec : exec (decode s.fetch.instr) s.fetch = .next s.fetch.abort := by
    obtain h | h := hword
    · rw [decode_reserved8 h, exec_reserved8]
    · rw [decode_reserved13 h, exec_reserved13]
  have hstep : step s = .next s.fetch.abort := step_of_exec he hf hexec
  obtain ⟨hpc, hregs, hmem⟩ := s.fetch.abort_frame
  exact ⟨_, hstep, rfl, rfl, rfl, hpc, fun r => (hregs r).trans (State.reg_congr s.fetch_regs r), s.fetch_cond, hmem,
    rfl, s.fetch_conOut, s.fetch_marks, s.fetch_inFlight.trans hf⟩

/-- Settles O6: the masks of the two reserved rows, and the abort on any state. -/
theorem reservedFormsCompleteInAbort : Obligations.ReservedFormsCompleteInAbort := by
  intro w s
  obtain ⟨hpc, hregs, hmem⟩ := s.abort_frame
  exact ⟨fun h => ⟨decode_reserved8 (topNibble_of_mask h), _, exec_reserved8 s, rfl, hpc, hregs, rfl, hmem, rfl, rfl,
      rfl, rfl, rfl, rfl⟩,
    fun h => ⟨decode_reserved13 (topNibble_of_mask h), _, exec_reserved13 s, rfl, hpc, hregs, rfl, hmem, rfl, rfl,
      rfl, rfl, rfl, rfl⟩⟩

end Sys2Proof.Machine
end

section
/-! The invariant (10_state.md sections 3 and 4, 60_exceptions.md sections 1 and 2): the fetch keeps it, the execute phase
keeps it but for the reason of a HALT at 0xFFFF, and the overflow check mends that reason. -/

namespace Sys2Proof.Machine

/-- Settles O9: nothing has happened at reset. -/
theorem resetMeetsInvariant : Obligations.ResetMeetsInvariant where
  memory := State.wf_reset
  cond := .inl (.inr (.inr rfl))
  engine := trivial
  flight := nofun
  marks := nofun

/-- Every instruction keeps memory canonical (R36). -/
theorem wf_exec {i : Instr} {s t : State} (h : exec i s = .next t) (hs : Memory.wf s.mem = true) :
    Memory.wf t.mem = true := by
  cases i with
  | trap v =>
    obtain ⟨-, -, hmem, -⟩ := exec_trap_frame h
    rwa [hmem]
  | br n z p off =>
    rw [exec_br] at h
    cases h
    exact hs
  | ld dr off => cases h; exact s.wf_memRead _ hs
  | ldr dr base off => cases h; exact s.wf_memRead _ hs
  | ldi dr off => cases h; exact State.wf_memRead _ _ (s.wf_memRead _ hs)
  | st sr off => cases h; exact s.wf_memWrite _ _ hs
  | str sr base off => cases h; exact s.wf_memWrite _ _ hs
  | sti sr off => cases h; exact State.wf_memWrite _ _ _ (s.wf_memRead _ hs)
  | _ => cases h; exact hs

/-- A service's new marks are legal, and if it is still in flight it is so under its own word. -/
def serviceLegal (s t : State) : Prop :=
  (∀ m ∈ t.marks, m ∈ s.marks ∨ markLegal m) ∧ ∀ f, t.inFlight = some f → flightWord f s.instr

/-- A state with one more mark. -/
theorem mem_marks_append {ms : List Mark} {n : Mark} (hn : markLegal n) : ∀ m ∈ ms ++ [n], m ∈ ms ∨ markLegal m := by
  intro m hm
  obtain h | h := List.mem_append.1 hm
  · exact .inl h
  · exact .inr (List.mem_singleton.1 h ▸ hn)

theorem State.getcRead_legal {s : State} (h : isTrap s.instr 0x20) : serviceLegal s s.getcRead := by
  cases hr : readAnswers s.conIn with
  | mk answer rest =>
    cases answer with
    | byte b =>
      rw [State.getcRead_byte hr]
      exact ⟨fun m hm => .inl hm, nofun⟩
    | endOfStream =>
      rw [State.getcRead_endOfStream hr]
      exact ⟨mem_marks_append (.inl h), nofun⟩
    | waiting =>
      rw [State.getcRead_waiting hr]
      exact ⟨fun m hm => .inl hm, fun f hf => Option.some.inj hf ▸ h⟩

theorem State.inReadEcho_legal {s : State} (h : isTrap s.instr 0x23) : serviceLegal s s.inReadEcho := by
  cases hr : readAnswers s.conIn with
  | mk answer rest =>
    cases answer with
    | byte b =>
      rw [State.inReadEcho_byte hr]
      exact ⟨fun m hm => .inl hm, nofun⟩
    | endOfStream =>
      rw [State.inReadEcho_endOfStream hr]
      exact ⟨mem_marks_append (.inr h), nofun⟩
    | waiting =>
      rw [State.inReadEcho_waiting hr]
      exact ⟨fun m hm => .inl hm, fun f hf => Option.some.inj hf ▸ h⟩

theorem State.stringPass_legal {s : State} (bytesOf : Word → Option (List Byte)) (a : Word) {again : InFlight}
    (h : flightWord again s.instr) : serviceLegal s (s.stringPass bytesOf a again) := by
  obtain ⟨-, -, hmarks, -, -, hflight⟩ := s.stringPass_frame bytesOf a again
  refine ⟨fun m hm => .inl (hmarks ▸ hm), fun f hf => ?_⟩
  obtain hnone | hagain := hflight
  · exact nomatch hnone.symm.trans hf
  · exact Option.some.inj (hagain.symm.trans hf) ▸ h

/-- A service in flight goes on under its own word. -/
theorem State.resume_legal {s : State} {f : InFlight} (h : flightWord f s.instr) : serviceLegal s (s.resume f) := by
  cases f with
  | getc => exact State.getcRead_legal h
  | inRead => exact State.inReadEcho_legal h
  | puts a => exact State.stringPass_legal _ _ h
  | putsp a => exact State.stringPass_legal _ _ h

/-- A TRAP marks the run, or begins a service, under its own word. -/
theorem State.dispatchTrap_legal {s : State} {v : Byte} (h : isTrap s.instr v) (hf : s.inFlight = none) :
    serviceLegal s (s.dispatchTrap v) := by
  have hquiet : ∀ t : State, t.marks = s.marks → t.inFlight = s.inFlight → serviceLegal s t := fun t hm hfl =>
    ⟨fun m hmem => .inl (hm ▸ hmem), fun f hsome => nomatch (hfl.trans hf).symm.trans hsome⟩
  obtain ⟨sv, rfl, hserve⟩ | ⟨hundef, hmark⟩ := s.dispatchTrap_cases v
  · rw [hserve]
    cases sv with
    | getc => exact State.getcRead_legal h
    | inChar => exact State.inReadEcho_legal (s := s.conWriteAll Config.inPrompt) h
    | puts => exact State.stringPass_legal _ _ h
    | putsp => exact State.stringPass_legal _ _ h
    | out => exact hquiet _ rfl rfl
    | halt => exact hquiet _ rfl rfl
  · rw [hmark]
    exact ⟨mem_marks_append ⟨v, h, hundef⟩, fun f hsome => nomatch hf.symm.trans hsome⟩

/-- The reason an execute phase gives for stopping, before the overflow check. -/
def stopExplained (s : State) : Prop :=
  s.engine = .running ∨ (s.engine = .halted .haltTrap ∧ isTrap s.instr 0x25 ∧ s.inFlight = none) ∨
    (s.engine = .aborted .reservedOpcode s.pc0 s.instr ∧ s.inFlight = none ∧
      (decode s.instr = .reserved8 ∨ decode s.instr = .reserved13))

/-- The invariant between the execute phase and the overflow check. -/
structure State.ExecInv (s : State) : Prop where
  memory : Memory.wf s.mem = true
  cond : condLegal s.cond
  stop : stopExplained s
  flight : ∀ f, s.inFlight = some f → s.engine = .running ∧ flightWord f s.instr
  marks : ∀ m ∈ s.marks, markLegal m

/-- The overflow check makes the engine state the one R184 and R188 give. -/
theorem State.engineLegal_endStep {u : State} (h : stopExplained u) : engineLegal u.endStep := by
  obtain heq | ⟨heq, -, hpc, -⟩ := u.endStep_cases
  · rw [heq]
    obtain hrun | ⟨hhalt, hword, hend⟩ | ⟨habort, -, hword⟩ := h
    · simp [engineLegal, hrun]
    · have hpc : u.pc0 ≠ Params.lastAddress := fun hpc => by
        have hover : u.endStep.engine = .halted .pcOverflow := by
          rw [State.endStep_of_eq hend hpc (by simp [hhalt]), State.halt_engine]
        simp [heq, hhalt] at hover
      simpa [engineLegal, hhalt, hpc] using hword
    · simp [engineLegal, habort, hword]
  · rw [heq]
    exact hpc

theorem State.ExecInv.endStep {u : State} (h : u.ExecInv) : u.endStep.Inv where
  memory := by simpa using h.memory
  cond := by simpa using h.cond
  engine := State.engineLegal_endStep h.stop
  flight f hf := by
    rw [State.endStep_inFlight] at hf
    rw [State.endStep_of_not_overflow (.inr (.inr (by simp [hf])))]
    exact h.flight f hf
  marks := by simpa using h.marks

/-- The fetch of a new step keeps the invariant. -/
theorem State.Inv.fetch {s : State} (h : s.Inv) (he : s.engine = .running) (hf : s.inFlight = none) : s.fetch.Inv where
  memory := s.wf_memRead s.pc h.memory
  cond := by simpa using h.cond
  engine := by simp [engineLegal, he]
  flight f hsome := by simp [hf] at hsome
  marks := by simpa using h.marks

/-- The execute phase of a new step. -/
theorem State.Inv.exec {s u : State} (h : s.Inv) (he : s.engine = .running) (hf : s.inFlight = none)
    (hu : exec (decode s.instr) s = .next u) : u.ExecInv := by
  obtain ⟨-, hinstr, -⟩ := exec_frame hu
  obtain ⟨hwrites, hkeeps⟩ := exec_cond hu
  have hmemory : Memory.wf u.mem = true := wf_exec hu h.memory
  have hcond : condLegal u.cond := by
    cases hw : condWritten (decode s.instr) with
    | true => exact .inl (hwrites hw)
    | false => rw [hkeeps hw]; exact h.cond
  have hidle : ∀ {p : InFlight → Prop} f, s.inFlight = some f → p f := fun f hsome => nomatch hf.symm.trans hsome
  obtain ⟨hi, rfl⟩ | ⟨hi, rfl⟩ | ⟨v, hv, hi, rfl⟩ | ⟨-, -, -, heng, hfl, hmarks⟩ := exec_cases hu
  · exact ⟨hmemory, hcond, .inr (.inl ⟨rfl, hi, hf⟩), hidle, h.marks⟩
  · exact ⟨hmemory, hcond, .inr (.inr ⟨rfl, hf, hi⟩), hidle, h.marks⟩
  · obtain ⟨hmarks, hflight⟩ := State.dispatchTrap_legal hi hf
    have heng := (s.dispatchTrap_frame hv).engine.trans he
    exact ⟨hmemory, hcond, .inl heng, fun f hsome => ⟨heng, hinstr ▸ hflight f hsome⟩,
      fun m hm => (hmarks m hm).elim (h.marks m) id⟩
  · exact ⟨hmemory, hcond, .inl (heng.trans he), hfl ▸ hidle, hmarks ▸ h.marks⟩

/-- A service that goes on. -/
theorem State.Inv.resume {s : State} {f : InFlight} (h : s.Inv) (hf : s.inFlight = some f) : (s.resume f).ExecInv := by
  obtain ⟨he, hword⟩ := h.flight f hf
  obtain ⟨hmarks, hflight⟩ := State.resume_legal hword
  have hframe := s.resume_frame f
  have heng := hframe.engine.trans he
  exact ⟨hframe.mem ▸ h.memory, hframe.cond ▸ h.cond, .inl heng, fun g hg => ⟨heng, hframe.instr ▸ hflight g hg⟩,
    fun m hm => (hmarks m hm).elim (h.marks m) id⟩

/-- Settles O10: the execute phase of a new step or of a service in flight, and then the overflow check. -/
theorem stepKeepsInvariant : Obligations.StepKeepsInvariant := by
  intro s t hs h
  obtain ⟨he, ⟨hf, u, hu, rfl⟩ | ⟨f, hf, rfl⟩⟩ := step_cases h
  · have hfetch := hs.fetch he hf
    exact (hfetch.exec (s.fetch_engine.trans he) (s.fetch_inFlight.trans hf) hu).endStep
  · exact (hs.resume hf).endStep

end Sys2Proof.Machine
end

section
/-! The flags as comparisons with zero (40_operate.md R80, 41_control.md R102). -/

namespace Sys2Proof.Machine

/-- Bit 15 is the sign. -/
theorem Word.getLsbD_15_iff (v : Word) : v.getLsbD 15 = true ↔ v.toInt < 0 := by
  rw [← BitVec.msb_eq_getLsbD_last v, BitVec.msb_eq_toInt, decide_eq_true_iff]

theorem Word.toInt_eq_zero_iff (v : Word) : v.toInt = 0 ↔ v = 0 :=
  ⟨fun h => BitVec.eq_of_toInt_eq h, fun h => h ▸ rfl⟩

/-- Each flag of a result says one of the three signs of the result. -/
theorem flags_iff_sign (v : Word) :
    (flagN (flagsOf v) = true ↔ v.toInt < 0) ∧ (flagZ (flagsOf v) = true ↔ v.toInt = 0) ∧
      (flagP (flagsOf v) = true ↔ 0 < v.toInt) := by
  have hzero := Word.toInt_eq_zero_iff v
  have hsign := Word.getLsbD_15_iff v
  obtain ⟨hv, h⟩ | ⟨hv, hneg, h⟩ | ⟨hv, hpos, h⟩ := flagsOf_cases v
  · have hint : v.toInt = 0 := hzero.2 hv
    rw [h]
    exact ⟨iff_of_false (by decide) (by omega), iff_of_true (by decide) hint, iff_of_false (by decide) (by omega)⟩
  · have hint : v.toInt < 0 := hsign.1 hneg
    rw [h]
    exact ⟨iff_of_true (by decide) hint, iff_of_false (by decide) (by omega), iff_of_false (by decide) (by omega)⟩
  · have hint : 0 < v.toInt := by
      have hnonneg : ¬v.toInt < 0 := fun hlt => Bool.false_ne_true (hpos.symm.trans (hsign.2 hlt))
      have hne : v.toInt ≠ 0 := fun heq => hv (hzero.1 heq)
      omega
    rw [h]
    exact ⟨iff_of_false (by decide) (by omega), iff_of_false (by decide) (by omega), iff_of_true (by decide) hint⟩

/-- Settles O17: each flag is a sign of the result, and bit 15 and the value 0 are two of those signs. -/
theorem flagLogicIsExclusive : Obligations.FlagLogicIsExclusive := by
  intro v
  obtain ⟨hn, hz, hp⟩ := flags_iff_sign v
  have hnat : v.toInt = 0 ↔ v.toNat = 0 := (Word.toInt_eq_zero_iff v).trans BitVec.toNat_inj.symm
  exact ⟨Bool.eq_iff_iff.2 (hn.trans (Word.getLsbD_15_iff v).symm), hz.trans hnat, hp, flagsAre_flagsOf v,
    flagsOf_oneFlag v⟩

/-- Settles O24: R100's condition, each flag replaced by the sign it says. -/
theorem branchConditionsCompareWithZero : Obligations.BranchConditionsCompareWithZero := by
  intro v n z p
  obtain ⟨hn, hz, hp⟩ := flags_iff_sign v
  simp only [branchTaken, Bool.or_eq_true, Bool.and_eq_true, hn, hz, hp, or_assoc]

end Sys2Proof.Machine
end

section
/-! Memory as data (10_state.md R32, 20_memory.md R41, R46). -/

namespace Sys2Proof.Machine

/-- A canonical memory's first cell reads as what it holds. -/
theorem Memory.read_cons_same (k : Nat) (v : Word) (m : Memory) : Memory.read ((k, v) :: m) k = v := if_pos rfl

/-- No address before a canonical memory's first cell is listed. -/
theorem Memory.read_before_first {a k : Nat} (v : Word) {m : Memory} (ha : a < k) (hm : Memory.wfFrom (k + 1) m = true) :
    Memory.read ((k, v) :: m) a = 0 := by
  rw [Memory.read, if_neg (Nat.ne_of_lt ha)]
  exact Memory.read_below hm (by omega)

/-- Canonical memories that read alike at every address of the space are the same list: their first cells have one
address. -/
theorem Memory.eq_of_read_eq {lo : Nat} {m m' : Memory} (hm : Memory.wfFrom lo m = true) (hm' : Memory.wfFrom lo m' = true)
    (h : ∀ a, a < 65536 → Memory.read m a = Memory.read m' a) : m = m' := by
  induction m generalizing lo m' with
  | nil =>
    cases m' with
    | nil => rfl
    | cons c m' =>
      obtain ⟨k, v⟩ := c
      obtain ⟨-, hk, hv, -⟩ := Memory.wfFrom_cons.1 hm'
      exact absurd ((h k hk).trans (Memory.read_cons_same k v m')).symm hv
  | cons c m ih =>
    obtain ⟨k, v⟩ := c
    obtain ⟨-, hk, hv, hrest⟩ := Memory.wfFrom_cons.1 hm
    have hread : Memory.read m' k = v := (h k hk).symm.trans (Memory.read_cons_same k v m)
    cases m' with
    | nil => exact absurd hread.symm hv
    | cons c' m' =>
      obtain ⟨k', v'⟩ := c'
      obtain ⟨-, hk', hv', hrest'⟩ := Memory.wfFrom_cons.1 hm'
      have hread' : Memory.read ((k, v) :: m) k' = v' := (h k' hk').trans (Memory.read_cons_same k' v' m')
      obtain hlt | rfl | hgt := Nat.lt_trichotomy k k'
      · exact absurd (hread.symm.trans (Memory.read_before_first v' hlt hrest')) hv
      · obtain rfl : v = v' := (Memory.read_cons_same k v m).symm.trans hread'
        congr 1
        refine ih hrest hrest' fun a ha => ?_
        by_cases hak : a ≤ k
        · rw [Memory.read_below hrest (by omega), Memory.read_below hrest' (by omega)]
        · simpa [Memory.read, show a ≠ k by omega] using h a ha
      · exact absurd (hread'.symm.trans (Memory.read_before_first v hgt hrest)) hv'

/-- Settles O38: an address of the space is a 16-bit word. -/
theorem memoryIsItsContents : Obligations.MemoryIsItsContents := by
  intro m m' hm hm' h
  apply Memory.eq_of_read_eq hm hm'
  intro a ha
  simpa [Nat.mod_eq_of_lt ha] using h (BitVec.ofNat 16 a)

/-- States that differ in memory alone, and whose memories are canonical and read alike, are the same. -/
theorem State.eq_of_rawRead_eq {s t : State} (hst : t = { s with mem := t.mem }) (hs : Memory.wf s.mem = true)
    (ht : Memory.wf t.mem = true) (h : ∀ a, t.rawRead a = s.rawRead a) : t = s := by
  rw [hst, memoryIsItsContents _ _ ht hs h]

/-- Settles O37: what one store reads as, and that canonical memories which read alike are equal. -/
theorem memWriteStoresOneWord : Obligations.MemWriteStoresOneWord := by
  intro s a v w hs
  refine ⟨s.rawRead_memWrite_same a v, fun b hb => s.rawRead_memWrite_other v hb, ⟨rfl, rfl, rfl⟩,
    ⟨rfl, rfl, rfl, rfl, rfl⟩, ?_, ?_, s.wf_memWrite a v hs⟩
  · refine State.eq_of_rawRead_eq rfl (s.wf_memWrite a w hs) (State.wf_memWrite _ a w (s.wf_memWrite a v hs)) fun b => ?_
    by_cases hb : b = a
    · rw [hb, State.rawRead_memWrite_same, State.rawRead_memWrite_same]
    · rw [State.rawRead_memWrite_other _ w hb, State.rawRead_memWrite_other _ v hb, State.rawRead_memWrite_other _ w hb]
  · refine State.eq_of_rawRead_eq rfl hs (s.wf_memWrite a _ hs) fun b => ?_
    by_cases hb : b = a
    · rw [hb, State.rawRead_memWrite_same]
    · rw [State.rawRead_memWrite_other _ _ hb]

end Sys2Proof.Machine
end

section
/-! The initial state (10_state.md R36, 70_reset_and_hazards.md R200 to R202). -/

namespace Sys2Proof.Machine

/-- The image's words do not reach an address outside it. -/
theorem Memory.read_storeWords_outside {m : Memory} {a b : Nat} {ws : List Word} (h : b < a ∨ a + ws.length ≤ b) :
    Memory.read (Memory.storeWords m a ws) b = Memory.read m b := by
  induction ws generalizing m a with
  | nil => rfl
  | cons w ws ih =>
    rw [List.length_cons] at h
    rw [Memory.storeWords, ih (by omega), Memory.read_write_other m w (by omega)]

theorem Memory.read_storeWords_inside {m : Memory} {a k : Nat} {ws : List Word} (h : k < ws.length) :
    Memory.read (Memory.storeWords m a ws) (a + k) = ws[k] := by
  induction ws generalizing m a k with
  | nil => exact absurd h (Nat.not_lt_zero k)
  | cons w ws ih =>
    rw [Memory.storeWords]
    cases k with
    | zero => rw [Memory.read_storeWords_outside (by omega)]; exact Memory.read_write_same m a w
    | succ k =>
      rw [show a + (k + 1) = a + 1 + k by omega, ih (Nat.lt_of_succ_lt_succ h)]
      rfl

theorem Regs.get_zero (r : Reg) : Regs.zero.get r = 0 := by cases r <;> rfl

/-- Settles O7: the image's words inside its range, and the empty memory outside it. -/
theorem bootGivesResetValues : Obligations.BootGivesResetValues := by
  refine ⟨rfl, Regs.get_zero, fun _ => rfl, rfl, fun condReset img _ hfit => ?_⟩
  refine ⟨Regs.get_zero, rfl, rfl, rfl, rfl, rfl, rfl, ?_, ?_⟩
  · intro k hk
    have haddr : (img.origin + BitVec.ofNat 16 k).toNat = img.origin.toNat + k := by
      rw [BitVec.toNat_add, BitVec.toNat_ofNat]
      omega
    rw [State.rawRead, haddr]
    exact Memory.read_storeWords_inside hk
  · intro a ha
    exact Memory.read_storeWords_outside ha

theorem toNat_append_byte (hi lo : Byte) : (hi ++ lo).toNat = hi.toNat * 256 + lo.toNat := by
  rw [BitVec.toNat_append, ← Nat.shiftLeft_add_eq_or_of_lt lo.isLt, Nat.shiftLeft_eq]

/-- An odd byte list has a byte left over. -/
theorem bigEndianWords_odd {bytes : List Byte} (h : bytes.length % 2 = 1) : bigEndianWords bytes = none := by
  induction bytes using bigEndianWords.induct with
  | case1 => simp at h
  | case2 => rfl
  | case3 hi lo rest ih =>
    simp only [List.length_cons] at h
    rw [bigEndianWords, ih (by omega)]
    rfl

/-- An even byte list is words, high byte first. -/
theorem bigEndianWords_even {bytes : List Byte} (h : bytes.length % 2 = 0) :
    ∃ ws, bigEndianWords bytes = some ws ∧ ws.length = bytes.length / 2 ∧
      ∀ i (hw : i < ws.length) (h0 : 2 * i < bytes.length) (h1 : 2 * i + 1 < bytes.length),
        ws[i] = bytes[2 * i] ++ bytes[2 * i + 1] := by
  induction bytes using bigEndianWords.induct with
  | case1 => exact ⟨[], rfl, rfl, fun i hw => absurd hw (Nat.not_lt_zero i)⟩
  | case2 => simp at h
  | case3 hi lo rest ih =>
    simp only [List.length_cons] at h
    obtain ⟨ws, hws, hlen, hword⟩ := ih (by omega)
    refine ⟨(hi ++ lo) :: ws, by rw [bigEndianWords, hws]; rfl, by simp only [List.length_cons]; omega, ?_⟩
    intro i hw h0 h1
    cases i with
    | zero => rfl
    | succ i =>
      simp only [List.length_cons] at hw h0 h1
      exact hword i (by omega) (by omega) (by omega)

/-- Settles O8: the first word is the origin and the others are the image, if they fit. -/
theorem imageParsesBigEndianOrIsRefused : Obligations.ImageParsesBigEndianOrIsRefused := by
  refine ⟨fun bytes h => by rw [parseImage, bigEndianWords_odd h], rfl, fun b0 b1 rest h => ?_⟩
  obtain ⟨ws, hws, hlen, hword⟩ := bigEndianWords_even h
  have hparse : parseImage (b0 :: b1 :: rest) =
      if b0.toNat * 256 + b1.toNat + rest.length / 2 ≤ 65536 then .ok ⟨b0 ++ b1, ws⟩ else .error .pastTop := by
    rw [← toNat_append_byte, ← hlen, parseImage, bigEndianWords, hws]
    rfl
  refine ⟨fun hpast => by rw [hparse, if_neg (by omega)], fun hfit => ?_⟩
  refine ⟨⟨b0 ++ b1, ws⟩, by rw [hparse, if_pos hfit], toNat_append_byte b0 b1, hlen, fun i hi h0 h1 => ?_⟩
  rw [hword i hi h0 h1, toNat_append_byte]

end Sys2Proof.Machine
end

section
/-! The keyboard poll (20_memory.md R42 to R45, R59). -/

namespace Sys2Proof.Machine

/-- A poll that finds data changes KBSR and KBDR. -/
theorem State.pollReady_words (s : State) (data : Word) :
    (s.pollReady data).rawRead 0xFE00 = 0x8000 ∧ (s.pollReady data).rawRead 0xFE02 = data ∧
      ∀ c, c ≠ 0xFE00 → c ≠ 0xFE02 → (s.pollReady data).rawRead c = s.rawRead c := by
  refine ⟨?_, State.rawRead_rawWrite_same _ _ _, fun c hkbsr hkbdr => ?_⟩
  · exact (State.rawRead_rawWrite_other _ _ (by decide)).trans (s.rawRead_rawWrite_same _ _)
  · exact (State.rawRead_rawWrite_other _ _ hkbdr).trans (s.rawRead_rawWrite_other _ hkbsr)

/-- A poll that finds nothing changes KBSR alone. -/
theorem State.pollNotReady_words (s : State) :
    s.pollNotReady.rawRead 0xFE00 = 0x0000 ∧ keepsMemoryBut 0xFE00 s s.pollNotReady :=
  ⟨s.rawRead_rawWrite_same _ _, fun _ hc => s.rawRead_rawWrite_other _ hc⟩

theorem State.pollKeyboard_byte {s : State} {b : Byte} {rest : List ConAnswer} (h : s.conIn = .byte b :: rest) :
    s.pollKeyboard = (s.withInput rest).pollReady (b.setWidth 16) := by
  unfold State.pollKeyboard
  rw [h]
  rfl

theorem State.pollKeyboard_notReady {s : State} (h : s.conIn = [] ∨ ∃ rest, s.conIn = .notReady :: rest) :
    s.pollKeyboard = (s.withInput (s.conIn.drop 1)).pollNotReady := by
  unfold State.pollKeyboard
  obtain h | ⟨rest, h⟩ := h
  · have hsame : s.withInput (s.conIn.drop 1) = s := by rw [h, List.drop_nil, ← h]; rfl
    rw [hsame, h]
  · rw [h]
    rfl

theorem State.pollKeyboard_endOfStream {s : State} {rest : List ConAnswer} (h : s.conIn = .endOfStream :: rest) :
    s.pollKeyboard = if Config.eofPollReady s.draws then s.drawn.pollReady (Config.eofSentinel s.draws)
      else s.drawn.pollNotReady := by
  unfold State.pollKeyboard
  rw [h]

/-- A read of KBSR answers what the poll stored there. -/
theorem State.memRead_kbsr_eq {s t : State} {v : Word} (hpoll : s.pollKeyboard = t) (hv : t.rawRead 0xFE00 = v) :
    s.memRead 0xFE00 = (v, t) := by
  rw [← hv, ← hpoll]
  exact s.memRead_kbsr

/-- Settles O35: a plain read, a poll that finds a byte and a poll that finds none. -/
theorem memReadPollsOnlyKbsr : Obligations.MemReadPollsOnlyKbsr := by
  refine fun s a => ⟨fun h => s.memRead_plain h, ?_, ?_⟩
  · rintro rfl b rest h
    obtain ⟨hkbsr, hkbdr, hother⟩ := (s.withInput rest).pollReady_words (b.setWidth 16)
    have hread := State.memRead_kbsr_eq (State.pollKeyboard_byte h) hkbsr
    obtain ⟨hregs, hcond, hpc, hcontrol⟩ := State.memRead_keepsProcessor hread
    exact ⟨_, hread, hkbsr, hkbdr, hother, rfl, rfl, rfl, hregs, hpc, hcond, hcontrol⟩
  · rintro rfl h
    obtain ⟨hkbsr, hother⟩ := (s.withInput (s.conIn.drop 1)).pollNotReady_words
    have hread := State.memRead_kbsr_eq (State.pollKeyboard_notReady h) hkbsr
    obtain ⟨hregs, hcond, hpc, hcontrol⟩ := State.memRead_keepsProcessor hread
    exact ⟨_, hread, hkbsr, hother, rfl, rfl, rfl, hregs, hpc, hcond, hcontrol⟩

/-- Settles O36: the two draws of the poll. -/
theorem pollAtEndOfStreamIsADraw : Obligations.PollAtEndOfStreamIsADraw := by
  intro s rest h
  have hpoll := State.pollKeyboard_endOfStream h
  split at hpoll
  · obtain ⟨hkbsr, hkbdr, hother⟩ := s.drawn.pollReady_words (Config.eofSentinel s.draws)
    have hread := State.memRead_kbsr_eq hpoll hkbsr
    obtain ⟨hregs, hcond, hpc, hcontrol⟩ := State.memRead_keepsProcessor hread
    exact ⟨s.drawn.pollReady _, rfl, rfl, hregs, hpc, hcond, hcontrol, .inr ⟨hread, hkbsr, hkbdr, hother⟩⟩
  · obtain ⟨hkbsr, hother⟩ := s.drawn.pollNotReady_words
    have hread := State.memRead_kbsr_eq hpoll hkbsr
    obtain ⟨hregs, hcond, hpc, hcontrol⟩ := State.memRead_keepsProcessor hread
    exact ⟨s.drawn.pollNotReady, rfl, rfl, hregs, hpc, hcond, hcontrol, .inl ⟨hread, hkbsr, hother⟩⟩

end Sys2Proof.Machine
end

section
/-! The fetch (10_state.md R24, 20_memory.md R43, R57). -/

namespace Sys2Proof.Machine

/-- A fetch from any address but KBSR touches neither memory nor the console. -/
theorem State.fetch_plain (s : State) (h : s.pc ≠ 0xFE00) :
    s.fetch = { s with pc0 := s.pc, instr := s.rawRead s.pc, pc := s.pc + 1 } := by
  unfold State.fetch
  rw [s.memRead_plain h]

/-- Settles O2: the fetch is the read at PC, which polls from 0xFE00 alone. -/
theorem fetchReadsAtPcAndIncrements : Obligations.FetchReadsAtPcAndIncrements := by
  intro s
  have hpc : s.fetch.pc = BitVec.ofNat 16 ((s.pc.toNat + 1) % 65536) := (Word.ofNat_sum_mod s.pc 1).symm
  refine ⟨rfl, hpc, rfl, fun _ => rfl, ⟨rfl, rfl, rfl⟩, fun h => ?_, fun h => ?_, State.reg_congr s.fetch_regs,
    s.fetch_cond, s.fetch_engine, s.fetch_inFlight, s.fetch_marks⟩
  · rw [s.fetch_plain h]
    exact ⟨rfl, fun _ => rfl, rfl, rfl, rfl⟩
  · refine ⟨s.fetch_kbsr h, ?_, fun a hkbsr hkbdr => ?_, s.fetch_conOut⟩
    · rw [← h]
      rfl
    · exact s.rawRead_memRead fun ha => absurd ha (not_or.2 ⟨hkbsr, hkbdr⟩)

/-- Settles O39: a fetch of a stored word, and the step of an ST whose store is to the next word or to its own. -/
theorem storeIsSeenByNextFetch : Obligations.StoreIsSeenByNextFetch := by
  have hfetch : ∀ (t : State), t.pc ≠ 0xFE00 → t.fetch.instr = t.rawRead t.pc := fun t h => by rw [t.fetch_plain h]
  refine ⟨fun s a v ha => ?_, fun s sr he hf hi htop hnext => ?_, fun s sr he hf hi => ?_⟩
  · rw [hfetch _ ha]
    exact s.rawRead_memWrite_same a v
  · have hstep := step_of_exec he hf (hi ▸ exec_st sr 0 s.fetch)
    rw [State.endStep_of_not_overflow (.inl htop)] at hstep
    have hea : s.fetch.eaPcRelative 0 = s.pc + 1 := BitVec.add_zero _
    refine ⟨_, hstep, rfl, ?_⟩
    rw [hea, hfetch _ hnext]
    exact (State.rawRead_memWrite_same _ _ _).trans (State.reg_congr s.fetch_regs sr)
  · have hstep := step_of_exec he hf (hi ▸ exec_st sr (-1) s.fetch)
    have hea : s.fetch.eaPcRelative (-1) = s.pc := (BitVec.add_assoc s.pc 1 (-1)).trans (BitVec.add_zero s.pc)
    refine ⟨_, hstep, ?_, State.endStep_instr _, State.endStep_pc _⟩
    rw [hea, State.rawRead_congr (State.endStep_mem _)]
    exact (State.rawRead_memWrite_same _ _ _).trans (State.reg_congr s.fetch_regs sr)

end Sys2Proof.Machine
end

section
/-! TRAP's frame, HALT and the undefined vectors (44_trap.md R160, R166, R167). -/

namespace Sys2Proof.Machine

/-- Settles O47: HALT's output and the stop of the engine. -/
theorem haltWritesMessageAndStops : Obligations.HaltWritesMessageAndStops := by
  intro s
  obtain ⟨hpc, hcond, hmem, hpc0, hinstr, -⟩ := exec_trap_frame (exec_halt s)
  exact ⟨_, exec_halt s, rfl, rfl, rfl, rfl, State.reg_congr rfl, hcond, hpc, State.rawRead_congr hmem, rfl, hpc0, hinstr,
    rfl⟩

/-- Settles O48: no service answers a vector outside R160's table, and the dispatcher marks the run. -/
theorem undefinedVectorIsAMarkedNoOp : Obligations.UndefinedVectorIsAMarkedNoOp := by
  rintro w v s hrow rfl hv
  obtain ⟨-, hundef⟩ := Service.ofVector_spec (w.extractLsb' 0 8)
  refine ⟨decode_trap hrow, ?_⟩
  rw [exec_trap, State.dispatchTrap, hundef.2 hv]
  rfl

/-- Settles O49: TRAP's word, and what every vector keeps. -/
theorem trapSavesNothing : Obligations.TrapSavesNothing := by
  intro w s hrow
  obtain ⟨hpc, hcond, hmem, hpc0, hinstr, hregs⟩ := exec_trap_frame (exec_trap (w.extractLsb' 0 8) s)
  exact ⟨decode_trap hrow, _, exec_trap _ s, hpc, hregs, hcond, State.rawRead_congr hmem, hpc0, hinstr⟩

end Sys2Proof.Machine
end

section
/-! GETC and IN (44_trap.md R161, R164, R169), by the first answer behind the failed polls. -/

namespace Sys2Proof.Machine

theorem exec_getc (s : State) : exec (.trap 0x20) s = .next s.getcRead := exec_trap_of_vector s (sv := .getc) rfl

/-- IN's prompt comes before its read. -/
theorem exec_in (s : State) : exec (.trap 0x23) s = .next (s.conWriteAll Config.inPrompt).inReadEcho :=
  exec_trap_of_vector s (sv := .inChar) rfl

theorem State.keepsRegsBut_set (s : State) (v : Word) : ∀ r, r ≠ .r0 → (s.regs.set .r0 v).get r = s.reg r :=
  fun _ hr => s.regs.get_set_other v hr

section
variable {s : State} {k : Nat} {b : Byte} {rest : List ConAnswer}

theorem readAnswers_of_byte (h : s.conIn = List.replicate k .notReady ++ .byte b :: rest) :
    readAnswers s.conIn = (.byte b, rest) := by
  rw [h, readAnswers_replicate, readAnswers_byte]

theorem readAnswers_of_endOfStream (h : s.conIn = List.replicate k .notReady ++ .endOfStream :: rest) :
    readAnswers s.conIn = (.endOfStream, .endOfStream :: rest) := by
  rw [h, readAnswers_replicate, readAnswers_endOfStream]

end

/-- Settles O40: the read answers the first byte. -/
theorem getcReadsOneByte : Obligations.GetcReadsOneByte := by
  intro s k b rest hf h
  refine ⟨_, (exec_getc s).trans (congrArg _ (State.getcRead_byte (readAnswers_of_byte h))), ?_⟩
  exact ⟨s.regs.get_set_same .r0 _, rfl, rfl, rfl, s.keepsRegsBut_set _, rfl, rfl, fun _ => rfl, rfl,
    hf.symm, rfl, rfl, rfl⟩

/-- Settles O41: the read answers the end of the stream. -/
theorem getcAtEndOfStreamMarksTheRun : Obligations.GetcAtEndOfStreamMarksTheRun := by
  intro s k rest _ h
  refine ⟨_, (exec_getc s).trans (congrArg _ (State.getcRead_endOfStream (readAnswers_of_endOfStream h))), ?_⟩
  exact ⟨s.regs.get_set_same .r0 _, rfl, rfl, rfl, rfl, rfl, s.keepsRegsBut_set _, rfl, rfl, rfl, rfl, fun _ => rfl⟩

/-- Settles O45: the prompt leaves the input alone, and the read answers the first byte. -/
theorem inPromptsEchoesAndReads : Obligations.InPromptsEchoesAndReads := by
  intro s k b rest hf h
  have hread := State.inReadEcho_byte (s := s.conWriteAll Config.inPrompt) (readAnswers_of_byte h)
  refine ⟨_, (exec_in s).trans (congrArg _ hread), ?_⟩
  exact ⟨s.regs.get_set_same .r0 _, rfl, List.append_assoc .., rfl, s.keepsRegsBut_set _, rfl, rfl, fun _ => rfl, rfl,
    hf.symm, rfl, rfl, rfl⟩

/-- Settles O46: the prompt leaves the input alone, and the read answers the end of the stream. -/
theorem inAtEndOfStreamMarksTheRun : Obligations.InAtEndOfStreamMarksTheRun := by
  intro s k rest _ h
  have hread := State.inReadEcho_endOfStream (s := s.conWriteAll Config.inPrompt) (readAnswers_of_endOfStream h)
  refine ⟨_, Config.eofEcho s.draws, (exec_in s).trans (congrArg _ hread), ?_⟩
  exact ⟨s.regs.get_set_same .r0 _, rfl, rfl, rfl, rfl, rfl, s.keepsRegsBut_set _, rfl, rfl, rfl, rfl, fun _ => rfl⟩

end Sys2Proof.Machine
end

section
/-! PUTS and PUTSP (44_trap.md R163, R165): the bytes of a run of words. -/

namespace Sys2Proof.Machine

/-- The bytes a string service writes for the `n` words from `a` on. -/
def State.stringBytes (s : State) (bytesOf : Word → Option (List Byte)) (a : Word) (n : Nat) : List Byte :=
  (List.range n).flatMap fun k => (bytesOf (s.rawRead (a + BitVec.ofNat 16 k))).getD []

/-- A word that does not end PUTS's string (R163). -/
theorem putsBytes_of_ne {w : Word} (h : w ≠ 0) : putsBytes w = some [w.extractLsb' 0 8] := if_neg h

/-- A word that does not end PUTSP's string (R165). -/
theorem putspBytes_of_ne {w : Word} (h : w.extractLsb' 0 8 ≠ 0) :
    putspBytes w = some (w.extractLsb' 0 8 :: if w.extractLsb' 8 8 = 0 then [] else [w.extractLsb' 8 8]) := by
  unfold putspBytes lowByte highByte
  rw [if_neg h]
  split <;> rfl

theorem State.stringBytes_puts {s : State} {a : Word} {n : Nat} (h : ∀ k, k < n → s.rawRead (a + BitVec.ofNat 16 k) ≠ 0) :
    s.stringBytes putsBytes a n = (List.range n).map fun k => (s.rawRead (a + BitVec.ofNat 16 k)).extractLsb' 0 8 := by
  rw [List.map_eq_flatMap]
  exact List.flatMap_congr fun k hk => by rw [putsBytes_of_ne (h k (List.mem_range.1 hk))]; rfl

theorem State.stringBytes_putsp {s : State} {a : Word} {n : Nat}
    (h : ∀ k, k < n → (s.rawRead (a + BitVec.ofNat 16 k)).extractLsb' 0 8 ≠ 0) :
    s.stringBytes putspBytes a n = (List.range n).flatMap fun k =>
      let w := s.rawRead (a + BitVec.ofNat 16 k)
      w.extractLsb' 0 8 :: if w.extractLsb' 8 8 = 0 then [] else [w.extractLsb' 8 8] :=
  List.flatMap_congr fun k hk => by rw [putspBytes_of_ne (h k (List.mem_range.1 hk))]; rfl

theorem exec_puts (s : State) : exec (.trap 0x22) s = .next (s.stringPass putsBytes (s.reg .r0) (.puts (s.reg .r0))) :=
  exec_trap_of_vector s (sv := .puts) rfl

theorem exec_putsp (s : State) : exec (.trap 0x24) s = .next (s.stringPass putspBytes (s.reg .r0) (.putsp (s.reg .r0))) :=
  exec_trap_of_vector s (sv := .putsp) rfl

/-- A pass over a string with a terminator writes its bytes and flushes. -/
theorem State.stringPass_of_terminator {s : State} {bytesOf : Word → Option (List Byte)} {a : Word} {n : Nat}
    (again : InFlight) (hn : n < 65536) (hword : ∀ k, k < n → ∃ bs, bytesOf (s.rawRead (a + BitVec.ofNat 16 k)) = some bs)
    (hend : bytesOf (s.rawRead (a + BitVec.ofNat 16 n)) = none) :
    s.stringPass bytesOf a again = (s.conWriteAll (s.stringBytes bytesOf a n)).conFlush.complete :=
  State.stringPass_terminated (stringLoop_terminated bytesOf s.mem n Params.memoryWords a hn hword hend)

/-- Settles O43: one pass, to the first zero word. -/
theorem putsWritesUpToZeroWord : Obligations.PutsWritesUpToZeroWord := by
  intro s n hf hn hword hend
  have hpass := State.stringPass_of_terminator (bytesOf := putsBytes) (.puts (s.reg .r0)) hn
    (fun k hk => ⟨_, putsBytes_of_ne (hword k hk)⟩) (if_pos hend)
  refine ⟨_, (exec_puts s).trans (congrArg _ hpass), ?_, rfl, rfl, fun _ => rfl, rfl, rfl, fun _ => rfl, rfl, hf.symm, rfl,
    rfl, rfl⟩
  simp [State.stringBytes_puts hword, Function.comp_def]

/-- Settles O44: one pass, to the first word with a zero low byte. -/
theorem putspWritesPackedBytes : Obligations.PutspWritesPackedBytes := by
  intro s n hf hn hword hend
  have hpass := State.stringPass_of_terminator (bytesOf := putspBytes) (.putsp (s.reg .r0)) hn
    (fun k hk => ⟨_, putspBytes_of_ne (hword k hk)⟩) (if_pos hend)
  refine ⟨_, (exec_putsp s).trans (congrArg _ hpass), ?_, rfl, rfl, fun _ => rfl, rfl, rfl, fun _ => rfl, rfl, hf.symm, rfl,
    rfl, rfl⟩
  simp [State.stringBytes_putsp hword, List.map_flatMap, apply_ite]

end Sys2Proof.Machine
end

section
/-! GETC and IN that wait (70_reset_and_hazards.md R210 (a); 60_exceptions.md R197). -/

namespace Sys2Proof.Machine

/-- A TRAP is never fetched from 0xFE00, where a fetch yields a reserved word or the no-op (R43). -/
theorem State.pc_ne_kbsr_of_trap {s : State} {v : Byte} (h : decode s.fetch.instr = .trap v) : s.pc ≠ 0xFE00 := by
  intro hpc
  obtain hi | hi := s.fetch_kbsr hpc
  · rw [hi, show decode 0x8000 = .reserved8 by decide] at h
    cases h
  · rw [hi, show decode 0x0000 = .br false false false 0 by decide] at h
    cases h

/-- The execute phase of a step that leaves its service in flight is the whole step. -/
theorem State.endStep_of_inFlight {u : State} {f : InFlight} (h : u.inFlight = some f) : u.endStep = u :=
  State.endStep_of_not_overflow (.inr (.inr (by simp [h])))

/-- A state that a step leaves as it is, once entered, is the state of every run. -/
theorem run_of_fixed {s t : State} (hs : step s = .next t) (ht : step t = .next t) (n : Nat) :
    Host.Core.run Sys2Proof.core (n + 1) s = .next t := by
  induction n with
  | zero => exact run_of_step hs
  | succ n ih => exact run_snoc ih ht

/-- A read with nothing supplied holds its service in flight, with the input used up. -/
def State.waitingWith (s : State) (f : InFlight) : State := (s.withInput []).holdIn f

theorem State.getcRead_wait {s : State} {k : Nat} (h : s.conIn = List.replicate k .notReady) :
    s.getcRead = s.waitingWith .getc := by
  rw [State.getcRead_waiting (h ▸ readAnswers_waiting k)]
  rfl

theorem State.inReadEcho_wait {s : State} {k : Nat} (h : s.conIn = List.replicate k .notReady) :
    s.inReadEcho = s.waitingWith .inRead := by
  rw [State.inReadEcho_waiting (h ▸ readAnswers_waiting k)]
  rfl

/-- A wait goes on unchanged. -/
theorem step_waitingWith {s : State} {f : InFlight} (he : s.engine = .running) (hf : f = .getc ∨ f = .inRead) :
    step (s.waitingWith f) = .next (s.waitingWith f) := by
  have hresume : (s.waitingWith f).resume f = s.waitingWith f := by
    obtain rfl | rfl := hf
    · exact State.getcRead_wait (s := s.waitingWith .getc) (k := 0) rfl
    · exact State.inReadEcho_wait (s := s.waitingWith .inRead) (k := 0) rfl
  rw [step_of_inFlight (s := s.waitingWith f) (f := f) he rfl, hresume, State.endStep_of_inFlight (f := f) rfl]

/-- A step whose instruction waits: the first step of the model reaches the wait, and the others leave it as it is. -/
theorem run_of_wait {s u : State} {f : InFlight} (he : s.engine = .running) (hidle : s.inFlight = none)
    (hu : u.engine = .running) (hf : f = .getc ∨ f = .inRead)
    (hexec : exec (decode s.fetch.instr) s.fetch = .next (u.waitingWith f)) (n : Nat) :
    Host.Core.run Sys2Proof.core (n + 1) s = .next (u.waitingWith f) := by
  have hstep := step_of_exec he hidle hexec
  rw [State.endStep_of_inFlight (f := f) rfl] at hstep
  exact run_of_fixed hstep (step_waitingWith hu hf) n

/-- Settles O50: GETC waits in the fetched state, IN in the fetched state with its prompt written. -/
theorem readWithoutAnswerWaitsForEver : Obligations.ReadWithoutAnswerWaitsForEver := by
  intro s v k he hidle hv hi hin
  have hfetch := s.fetch_plain (State.pc_ne_kbsr_of_trap hi)
  have hrun : s.fetch.engine = .running := s.fetch_engine.trans he
  have hregs : keepsRegs s s.fetch := State.reg_congr s.fetch_regs
  have hmem : keepsMemory s s.fetch := by rw [hfetch]; exact fun _ => rfl
  have hin' : s.fetch.conIn = List.replicate k .notReady := by rw [hfetch]; exact hin
  obtain rfl | rfl := hv
  · have hexec : exec (decode s.fetch.instr) s.fetch = .next (s.fetch.waitingWith .getc) := by
      rw [hi, exec_getc, State.getcRead_wait hin']
    refine ⟨s.fetch.waitingWith .getc, rfl, hrun, rfl, hregs, hmem, ?_, run_of_wait he hidle hrun (.inl rfl) hexec⟩
    exact s.fetch_conOut.trans (List.append_nil _).symm
  · have hexec : exec (decode s.fetch.instr) s.fetch =
        .next ((s.fetch.conWriteAll Config.inPrompt).waitingWith .inRead) := by
      rw [hi, exec_in, State.inReadEcho_wait (s := s.fetch.conWriteAll Config.inPrompt) hin']
    refine ⟨(s.fetch.conWriteAll Config.inPrompt).waitingWith .inRead, rfl, hrun, rfl, hregs, hmem, ?_,
      run_of_wait he hidle hrun (.inr rfl) hexec⟩
    exact congrArg (· ++ Config.inPrompt.map ConEvent.out) s.fetch_conOut

/-- Where a service in flight has ended, the step halts exactly when it was fetched from 0xFFFF (R184). -/
theorem State.endStep_engine_of_running {u : State} (hf : u.inFlight = none) (he : u.engine = .running) :
    u.endStep.engine = if u.pc0 = 0xFFFF then .halted .pcOverflow else .running := by
  have hcause : u.faultCause = none := State.faultCause_eq_none_iff.2 (by simp [he])
  rw [u.endStep_engine, he]
  simp [hf, hcause]

/-- A read in flight that ends: the step's result is the service's, seen through the overflow check. -/
theorem step_resume {s u : State} {f : InFlight} {l : List ConAnswer} (he : s.engine = .running)
    (hf : s.inFlight = some f) (hu : (s.hostSupplies l).resume f = u) (hend : u.inFlight = none) :
    step (s.hostSupplies l) = .next u.endStep ∧ u.endStep.inFlight = none ∧
      u.endStep.engine = (if s.pc0 = 0xFFFF then .halted .pcOverflow else .running) ∧
      keepsRegsBut .r0 s u.endStep ∧ u.endStep.pc = s.pc ∧ u.endStep.cond = s.cond ∧ keepsMemory s u.endStep := by
  obtain ⟨hpc, hcond, hmem, heng, hpc0, -, hregs⟩ := (s.hostSupplies l).resume_frame f
  rw [hu] at hpc hcond hmem heng hpc0 hregs
  refine ⟨by rw [step_of_inFlight (s := s.hostSupplies l) he hf, hu], u.endStep_inFlight.trans hend, ?_,
    fun r hr => (State.reg_congr u.endStep_regs r).trans (hregs r hr), u.endStep_pc.trans hpc, u.endStep_cond.trans hcond,
    State.rawRead_congr (u.endStep_mem.trans hmem)⟩
  rw [State.endStep_engine_of_running hend (heng.trans he), hpc0]
  rfl

/-- What a byte makes of a read in flight: IN echoes it and flushes. -/
theorem State.resume_byte {s : State} {f : InFlight} {b : Byte} {rest : List ConAnswer} (hf : f = .getc ∨ f = .inRead)
    (h : readAnswers s.conIn = (.byte b, rest)) :
    s.resume f = { s with
      conIn := rest
      regs := s.regs.set .r0 (zext16 b)
      conOut := s.conOut ++ (if f = .inRead then [.out b, .flush] else [])
      inFlight := none } := by
  obtain rfl | rfl := hf
  · rw [State.resume, State.getcRead_byte h, if_neg (by decide), List.append_nil]
  · rw [State.resume, State.inReadEcho_byte h, if_pos rfl, List.append_assoc]
    rfl

/-- What the end of the stream makes of a read in flight: IN echoes the drawn byte, if any, and flushes. -/
theorem State.resume_endOfStream {s : State} {f : InFlight} {rest : List ConAnswer} (hf : f = .getc ∨ f = .inRead)
    (h : readAnswers s.conIn = (.endOfStream, rest)) :
    s.resume f = { s with
      conIn := rest
      regs := s.regs.set .r0 (Config.eofSentinel s.draws)
      draws := s.draws + 1
      conOut := s.conOut ++ (if f = .inRead then (Config.eofEcho s.draws).toList.map ConEvent.out ++ [.flush] else [])
      marks := s.marks ++ [⟨.consoleEndOfStream, s.pc0, s.instr⟩]
      inFlight := none } := by
  obtain rfl | rfl := hf
  · rw [State.resume, State.getcRead_endOfStream h, if_neg (by decide), List.append_nil]
  · rw [State.resume, State.inReadEcho_endOfStream h, if_pos rfl, List.append_assoc]

/-- Settles O51: the service goes on with the byte or with the end of the stream, and the overflow check ends the step. -/
theorem waitingReadIsWokenByAByte : Obligations.WaitingReadIsWokenByAByte := by
  intro s f he hf hread hin
  have hanswers : ∀ l, (s.hostSupplies l).conIn = l := fun l => by rw [State.hostSupplies_conIn, hin]; rfl
  refine ⟨fun b => ?_, ?_⟩
  · have hresume := State.resume_byte hread ((congrArg readAnswers (hanswers _)).trans (readAnswers_byte b []))
    obtain ⟨hstep, hend, heng, hregs, hpc, hcond, hmem⟩ := step_resume he hf hresume rfl
    exact ⟨_, hstep, hend, heng, (State.reg_congr (State.endStep_regs _) _).trans (s.regs.get_set_same .r0 _), hregs, hpc,
      hcond, hmem, State.endStep_conIn _, State.endStep_conOut _, State.endStep_marks _⟩
  · have hresume := State.resume_endOfStream hread ((congrArg readAnswers (hanswers _)).trans (readAnswers_endOfStream []))
    obtain ⟨hstep, hend, heng, hregs, hpc, hcond, hmem⟩ := step_resume he hf hresume rfl
    exact ⟨_, Config.eofEcho s.draws, hstep, hend, heng,
      (State.reg_congr (State.endStep_regs _) _).trans (s.regs.get_set_same .r0 _), hregs, hpc,
      hcond, hmem, State.endStep_conIn _, State.endStep_conOut _, State.endStep_marks _⟩

end Sys2Proof.Machine
end

section
/-! PUTS and PUTSP without a terminator (70_reset_and_hazards.md R210 (b), (c)). -/

namespace Sys2Proof.Machine

section
variable (bytesOf : Word → Option (List Byte))

/-- `n` passes over the whole of memory from `a` on, and the service still in flight. -/
def State.afterPasses (s : State) (a : Word) (again : InFlight) (n : Nat) : State :=
  (s.conWriteAll (s.stringBytes bytesOf a (Params.memoryWords * n))).holdIn again

/-- The address after a whole number of passes is the one they began at. -/
theorem Word.add_ofNat_passes (a : Word) (n k : Nat) :
    a + BitVec.ofNat 16 (Params.memoryWords * n + k) = a + BitVec.ofNat 16 k := by
  congr 1
  apply BitVec.eq_of_toNat_eq
  simp [Params.memoryWords, BitVec.toNat_ofNat]

/-- One pass more writes the same bytes again. -/
theorem State.stringBytes_pass (s : State) (a : Word) (n : Nat) :
    s.stringBytes bytesOf a (Params.memoryWords * (n + 1)) =
      s.stringBytes bytesOf a (Params.memoryWords * n) ++ s.stringBytes bytesOf a Params.memoryWords := by
  unfold State.stringBytes
  rw [Nat.mul_succ, List.range_add, List.flatMap_append, List.flatMap_map]
  simp only [Word.add_ofNat_passes]

/-- A pass after `n` passes writes to the same console. -/
theorem State.afterPasses_succ (s : State) (a : Word) (again : InFlight) (n : Nat) :
    s.afterPasses bytesOf a again (n + 1) =
      ((s.afterPasses bytesOf a again n).conWriteAll (s.stringBytes bytesOf a Params.memoryWords)).holdIn again := by
  unfold State.afterPasses
  rw [State.stringBytes_pass]
  simp only [State.conWriteAll, State.holdIn, List.map_append, List.append_assoc]

/-- The bytes depend on memory alone. -/
theorem State.stringBytes_congr {s t : State} (h : t.mem = s.mem) (a : Word) (n : Nat) :
    t.stringBytes bytesOf a n = s.stringBytes bytesOf a n := by
  unfold State.stringBytes
  simp only [State.rawRead_congr h]

end

section
variable {bytesOf : Word → Option (List Byte)} {s u : State} (hmem : ∀ a, ∃ bs, bytesOf (u.rawRead a) = some bs)
include hmem

theorem stringLoop_of_no_terminator (n : Nat) (a : Word) :
    stringLoop bytesOf u.mem n a = (u.stringBytes bytesOf a n, false) :=
  stringLoop_unterminated bytesOf u.mem hmem n a

/-- A pass that finds no terminator writes every word's bytes and stays in flight. -/
theorem State.stringPass_of_no_terminator (a : Word) (again : InFlight) :
    u.stringPass bytesOf a again = (u.conWriteAll (u.stringBytes bytesOf a Params.memoryWords)).holdIn again := by
  have hloop := stringLoop_of_no_terminator hmem Params.memoryWords a
  rw [State.stringPass_unterminated (by rw [hloop]), hloop]

theorem State.stringPass_eq_afterPasses_one (a : Word) (again : InFlight) :
    u.stringPass bytesOf a again = u.afterPasses bytesOf a again 1 := by
  rw [State.stringPass_of_no_terminator hmem, State.afterPasses, Nat.mul_one]

theorem State.stringPass_afterPasses (a : Word) (again : InFlight) (n : Nat) :
    (u.afterPasses bytesOf a again n).stringPass bytesOf a again = u.afterPasses bytesOf a again (n + 1) := by
  rw [State.stringPass_of_no_terminator (u := u.afterPasses bytesOf a again n) hmem, u.afterPasses_succ,
    State.stringBytes_congr (s := u) (t := u.afterPasses bytesOf a again n) bytesOf rfl]

/-- A string service whose memory never ends its string: after `n + 1` steps of the model it has made `n + 1` passes. -/
theorem run_of_no_terminator {a : Word} {again : InFlight}
    (he : s.engine = .running) (hidle : s.inFlight = none) (hu : u.engine = .running)
    (hexec : exec (decode s.fetch.instr) s.fetch = .next (u.stringPass bytesOf a again))
    (hresume : ∀ t : State, t.resume again = t.stringPass bytesOf a again) (n : Nat) :
    Host.Core.run Sys2Proof.core (n + 1) s = .next (u.afterPasses bytesOf a again (n + 1)) := by
  induction n with
  | zero =>
    have hstep := step_of_exec he hidle hexec
    rw [State.stringPass_eq_afterPasses_one hmem, State.endStep_of_inFlight (f := again) rfl] at hstep
    exact run_of_step hstep
  | succ n ih =>
    have hstep := step_of_inFlight (s := u.afterPasses bytesOf a again (n + 1)) (f := again) hu rfl
    rw [hresume, State.stringPass_afterPasses hmem, State.endStep_of_inFlight (f := again) rfl] at hstep
    exact run_snoc ih hstep

end

/-- Bytes written add to the output as they are, and flush nothing. -/
theorem State.output_of_conOut {s t : State} {bs : List Byte} (h : t.conOut = s.conOut ++ bs.map .out) :
    t.output = s.output ++ bs ∧ t.conOut.count .flush = s.conOut.count .flush := by
  have hflush : (bs.map ConEvent.out).count .flush = 0 := List.count_eq_zero.2 (by simp)
  constructor
  · unfold State.output
    rw [h, List.filterMap_append]
    refine congrArg (_ ++ ·) ?_
    simp [List.filterMap_map]
  · rw [h, List.count_append, hflush, Nat.add_zero]

/-- A string TRAP over a memory that never ends its string, from the step's fetch on. -/
theorem exists_run_of_no_terminator {bytesOf : Word → Option (List Byte)} {again : Word → InFlight} {v : Byte} {s : State}
    (he : s.engine = .running) (hidle : s.inFlight = none) (hi : decode s.fetch.instr = .trap v)
    (hexec : ∀ u : State, exec (.trap v) u = .next (u.stringPass bytesOf (u.reg .r0) (again (u.reg .r0))))
    (hresume : ∀ (a : Word) (u : State), u.resume (again a) = u.stringPass bytesOf a (again a))
    (hmem : ∀ a, ∃ bs, bytesOf (s.rawRead a) = some bs) (n : Nat) :
    ∃ t : State, Host.Core.run Sys2Proof.core (n + 1) s = .next t ∧ t.engine = .running ∧ t.stepDone = false ∧
      keepsRegs s t ∧ keepsMemory s t ∧
      t.conOut = s.conOut ++ (s.stringBytes bytesOf (s.reg .r0) (Params.memoryWords * (n + 1))).map .out := by
  have hmem_eq : s.fetch.mem = s.mem := by rw [s.fetch_plain (State.pc_ne_kbsr_of_trap hi)]
  have hkept : keepsMemory s s.fetch := State.rawRead_congr hmem_eq
  have hregs : keepsRegs s s.fetch := State.reg_congr s.fetch_regs
  have hpass : exec (decode s.fetch.instr) s.fetch =
      .next (s.fetch.stringPass bytesOf (s.reg .r0) (again (s.reg .r0))) := by rw [hi, hexec, hregs]
  have hrun : s.fetch.engine = .running := s.fetch_engine.trans he
  refine ⟨_, run_of_no_terminator (fun a => hkept a ▸ hmem a) he hidle hrun hpass (hresume _) n, hrun, rfl, hregs, hkept,
    ?_⟩
  rw [State.afterPasses, State.stringBytes_congr bytesOf hmem_eq, State.holdIn_conOut, State.conWriteAll_conOut,
    State.fetch_conOut]

/-- Settles O52: each word gives one byte. -/
theorem putsWithoutTerminatorNeverEnds : Obligations.PutsWithoutTerminatorNeverEnds := by
  intro s he hidle hi hmem n
  obtain ⟨t, hrun, heng, hdone, hregs, hkept, hout⟩ := exists_run_of_no_terminator he hidle hi exec_puts (fun _ _ => rfl)
    (fun a => ⟨_, putsBytes_of_ne (hmem a)⟩) n
  rw [State.stringBytes_puts fun k _ => hmem _] at hout
  obtain ⟨houtput, hflush⟩ := State.output_of_conOut hout
  refine ⟨t, hrun, heng, hdone, hregs, hkept, by rw [hout, List.map_map]; rfl, ?_, hflush⟩
  rw [houtput, List.length_append, List.length_map, List.length_range]
  rfl

/-- A concatenation of nonempty lists is at least as long as there are lists. -/
theorem length_le_length_flatMap {α β : Type} {l : List α} {f : α → List β} (h : ∀ a ∈ l, 1 ≤ (f a).length) :
    l.length ≤ (l.flatMap f).length := by
  rw [List.length_flatMap, ← List.length_map (as := l) (fun a => (f a).length)]
  exact List.length_le_sum_of_one_le _ (by simpa using h)

/-- Settles O53: each word gives one byte or two. -/
theorem putspWithoutTerminatorNeverEnds : Obligations.PutspWithoutTerminatorNeverEnds := by
  intro s he hidle hi hmem n
  obtain ⟨t, hrun, heng, hdone, hregs, hkept, hout⟩ := exists_run_of_no_terminator he hidle hi exec_putsp (fun _ _ => rfl)
    (fun a => ⟨_, putspBytes_of_ne (hmem a)⟩) n
  rw [State.stringBytes_putsp fun k _ => hmem _] at hout
  obtain ⟨houtput, hflush⟩ := State.output_of_conOut hout
  refine ⟨t, hrun, heng, hdone, hregs, hkept, by rw [hout]; simp [List.map_flatMap, apply_ite], ?_, hflush⟩
  have hlen := length_le_length_flatMap (l := List.range (Params.memoryWords * (n + 1)))
    (f := fun k => let w := s.rawRead (s.reg .r0 + BitVec.ofNat 16 k)
      w.extractLsb' 0 8 :: if w.extractLsb' 8 8 = 0 then [] else [w.extractLsb' 8 8]) (fun _ _ => Nat.le_add_left _ _)
  rw [List.length_range] at hlen
  rw [houtput, List.length_append]
  exact Nat.add_le_add_left hlen _

end Sys2Proof.Machine
end
